-- ==== Sys2Proof/Word.lean ====
section
/-! DEFINITION. The words of MM320: 32-bit limbs, bytes of the entropy draw, and the 10-limb scalar
(spec/00_scope.md R8, R13, R14). Only types stand here. -/

namespace Sys2Proof

/-- A limb, a carry word, a command word or a register of the window: 32 bits, unsigned (R8, R13). -/
abbrev Word := BitVec 32

/-- One byte of an ENTROPY draw (R180). -/
abbrev Byte := BitVec 8

/-- A scalar: 10 limbs of 32 bits, limb 0 least significant (R8, R14). -/
abbrev Limbs := Vector Word 10

/-- One answer of the ENTROPY oracle: the 40 bytes E[0..39] (R180). -/
abbrev Draw := Vector Byte 40

end Sys2Proof
end

