-- ==== Sys2Proof/Config.lean ====
section
/-! DEFINITION. What the spec leaves open (spec/00_scope.md R12): the parameters of an instance, and the free
values, which have no body. -/

namespace Sys2Proof

/-- DATA_RESET (R230): what the data registers A, B and Y hold after reset. -/
inductive DataReset where
  /-- Each limb holds no value until written; using it is the UNINIT fault (R35, R208). -/
  | unspecified
  /-- Every limb is 0x00000000. -/
  | zero
deriving DecidableEq, Repr

/-- TOPLIMB_OVERFLOW (R122): the result of a command whose kernel's top-limb sum cc1 + cc2 reaches 2^32. -/
inductive TopLimbOverflow where
  /-- The sum is taken mod 2^32 (the spec's default). -/
  | wrap
  /-- The whole result of the command is an unconstrained draw of 320 bits. -/
  | any
deriving DecidableEq, Repr

/-- The parameters of one instance (R12, R215). They stand in State, so a statement over all states holds for
every choice of them; no step changes them. -/
structure Params where
  /-- MM_BASE / 128: the base is a multiple of 128 by construction (R50). -/
  window : Nat
  dataReset : DataReset
  topLimb : TopLimbOverflow
deriving DecidableEq, Repr

/-- MM_BASE, the bus byte address of the register window (R50). -/
def Params.mmBase (p : Params) : Nat := 128 * p.window

/-- The parameters State.reset is given. DESIGN CHOICE (log 1, 2, 3): MM_BASE = 0, DATA_RESET = zero,
TOPLIMB_OVERFLOW = wrap. -/
def Params.atReset : Params := ⟨0, .zero, .wrap⟩

/-- ENTROPY (R180): the n-th draw that no queued answer supplies. Free value (log 5): under no law, no body. -/
opaque Config.freeEntropy : Nat → Draw

/-- TOPLIMB_OVERFLOW = any (R122): the n-th unconstrained draw of 320 bits. Free value (log 3): no body. -/
opaque Config.freeResult : Nat → Limbs

end Sys2Proof
end

