-- ==== Sys2Proof/Machine/State.lean ====
section
/-! DEFINITION. The state of one MM320 instance (spec/10_state.md R20), the events that come from outside it,
the ways a step can stop, and the state after reset (spec/70_reset_and_hazards.md R230, R231). -/

namespace Sys2Proof.Machine

/-- A bus access by some master (R15, R52). Widths are in bits. The value of a write is the 32-bit value of
R52; a write of another width is a bus error whatever it carries, so its value is not looked at. -/
inductive BusAccess where
  | read (addr width : Nat)
  | write (addr width : Nat) (value : Word)
deriving DecidableEq, Repr

/-- One event of the total order of R59, with the reset of R232. -/
inductive Event where
  /-- An access by a bus master. -/
  | bus (access : BusAccess)
  /-- The CORE agent's turn: it completes the accepted command if BUSY = 1 (R201). -/
  | core
  /-- The platform asserts reset (R232). -/
  | reset
deriving DecidableEq, Repr

/-- What the block answered to the last bus access (MODEL's own field, log 8). -/
inductive BusResponse where
  /-- No access yet since the state was set up. -/
  | none
  /-- The value a read returned. -/
  | value (w : Word)
  /-- A write was taken. -/
  | written
deriving DecidableEq, Repr

/-- The STATUS fields (R26). -/
structure Status where
  busy : Bool
  done : Bool
  eq : Bool
  err : Bool
  errCode : BitVec 4
deriving DecidableEq, Repr

/-- The data registers (R20), as the UNINIT fault names them. -/
inductive DataReg where
  | A
  | B
  | Y
deriving DecidableEq, Repr

/-- The state. The first group is the architectural state of R20 (the ROM of R29 is constant and stands in
Rom.lean); `aHeld`, `bHeld` and `yHeld` say which limbs hold a value (R35, log 14); `params` are the parameters of
R12; the last group is the model's own. -/
structure State where
  a : Limbs
  b : Limbs
  y : Limbs
  lastCmd : Word
  status : Status
  lop : BitVec 5
  lay : Bool
  la : Limbs
  lb : Limbs
  aHeld : Vector Bool 10
  bHeld : Vector Bool 10
  yHeld : Bool
  params : Params
  inputs : List Event
  response : BusResponse
  entropy : List Draw
  draws : Nat
  freeDraws : Nat
deriving DecidableEq, Repr

/-- Why the machine stops with a fault. -/
inductive Fault where
  /-- BUS_ERROR (R203): raised by a bus access of a width other than 32 bits, at an address that is no
  multiple of 4, or by a write to Y, with its address and width. Safe: the spec records it as a fault of the
  host agent that is never cleared. -/
  | busError (addr width : Nat)
  /-- UNINIT (R208): raised by a read of a limb that holds no value and by the acceptance of a command that
  reads one. The spec itself says that the machine stops there: R230 ("reading it, or using it as an operand, is the
  UNINIT fault"), R208 ("recorded and never cleared"), R35, D13 of 92_eei_decisions.md, I4 of
  93_implementation_defined.md (treatment: fault) and the vector IF-23. Safe, and only with DATA_RESET = unspecified:
  after State.reset every limb holds a value. -/
  | uninit (reg : DataReg)
  /-- Raised by the core's turn when BUSY = 1 and LOP is no opcode. R202 says LOP never holds such a value,
  so no run reaches this (log 13). Safe: it stops. -/
  | latchedOpcode (lop : BitVec 5)
deriving DecidableEq, Repr

/-- Why a step is refused. -/
inductive Refusal where
  /-- Raised by exec for an instruction that has no meaning yet. Safe: it stops. -/
  | notModelled (mnemonic : String)
  /-- Raised by a bus access to an address outside the window, which is the platform's matter (R50). Safe: it
  stops. -/
  | outsideWindow (addr : Nat)
deriving DecidableEq, Repr

/-- What one step, and one meaning, answers. -/
abbrev Result := Host.Outcome State Fault Refusal

/-- STATUS after reset (R231): it reads 0x00000000. -/
def Status.reset : Status := ⟨false, false, false, false, 0⟩

/-- The state right after reset of an instance with parameters p (R230, R231). With DATA_RESET = unspecified
no limb holds a value. The latches are unspecified and unobservable (R231): zero here, DESIGN CHOICE, log 4. -/
def State.resetWith (p : Params) : State where
  a := Vector.replicate 10 0
  b := Vector.replicate 10 0
  y := Vector.replicate 10 0
  lastCmd := 0
  status := Status.reset
  lop := 0
  lay := false
  la := Vector.replicate 10 0
  lb := Vector.replicate 10 0
  aHeld := Vector.replicate 10 (p.dataReset == .zero)
  bHeld := Vector.replicate 10 (p.dataReset == .zero)
  yHeld := p.dataReset == .zero
  params := p
  inputs := []
  response := .none
  entropy := []
  draws := 0
  freeDraws := 0

/-- The machine right after reset, with the parameters of Params.atReset (log 1, 2, 3). -/
def State.reset : State := State.resetWith Params.atReset

end Sys2Proof.Machine
end

