-- ==== Sys2Proof/Machine/Flags.lean ====
section
/-! DEFINITION. The STATUS register (spec/10_state.md R26, R28): its word, and what acceptance, completion, an
error and a host write do to its fields. -/

namespace Sys2Proof.Machine

/-- One flag of STATUS at its bit. -/
def flagAt (k : Nat) (v : Bool) : Word := if v then (1 : Word) <<< k else 0

/-- STATUS as the host reads it: BUSY at 0, DONE at 1, EQ at 2, ERR at 3, ERRCODE at 7:4, 31:8 zero (R26). -/
def Status.word (st : Status) : Word :=
  flagAt 0 st.busy ||| flagAt 1 st.done ||| flagAt 2 st.eq ||| flagAt 3 st.err |||
    (st.errCode.setWidth 32 <<< 4)

/-- Acceptance: BUSY <- 1, DONE <- 0 (R200). -/
def Status.accept (st : Status) : Status := { st with busy := true, done := false }

/-- Completion: BUSY <- 0, DONE <- 1 (R202). -/
def Status.complete (st : Status) : Status := { st with busy := false, done := true }

/-- STATUS.EQ <- v, written by the completion of EQ alone (R186). -/
def Status.setEq (v : Bool) (st : Status) : Status := { st with eq := v }

/-- ILLEGAL_CMD (R204, R210). -/
def codeIllegalCmd : BitVec 4 := 1

/-- CMD_WHILE_BUSY (R206, R210). -/
def codeCmdWhileBusy : BitVec 4 := 2

/-- raise: ERR and ERRCODE take the error if ERR was 0, and keep the first one if it was 1 (R205). -/
def Status.raise (code : BitVec 4) (st : Status) : Status :=
  if st.err then st else { st with err := true, errCode := code }

/-- A host write of v to STATUS: bit 3 of v clears ERR and ERRCODE, every other bit is ignored (R26). -/
def Status.hostWrite (v : Word) (st : Status) : Status :=
  if v.getLsbD 3 then { st with err := false, errCode := 0 } else st

end Sys2Proof.Machine
end

