-- ==== Sys2Proof/Syntax.lean ====
section
/-! DEFINITION. The commands of MM320 as syntax: the 12 mnemonics (spec/30_encoding.md R80), the operand
sources AY and BY (R71, R72), one constructor of Instr per row of spec/opcode_table.json, and a command as
it is spelled in the assembler syntax of R84. -/

namespace Sys2Proof

/-- Where operand a comes from: register A (AY = 0) or register Y (AY = 1), R71 and R72. -/
inductive SrcA where
  | regA
  | regY
deriving DecidableEq, Repr

/-- Where operand b comes from: register B (BY = 0) or register Y (BY = 1), R71 and R72. -/
inductive SrcB where
  | regB
  | regY
deriving DecidableEq, Repr

/-- The AY bit that names a source. -/
def SrcA.bit : SrcA → Bool
  | .regA => false
  | .regY => true

/-- The BY bit that names a source. -/
def SrcB.bit : SrcB → Bool
  | .regB => false
  | .regY => true

/-- The source an AY bit names. -/
def SrcA.ofBit : Bool → SrcA
  | false => .regA
  | true => .regY

/-- The source a BY bit names. -/
def SrcB.ofBit : Bool → SrcB
  | false => .regB
  | true => .regY

/-- The 12 operations of R80, by name. -/
inductive Op where
  | montMul | toMont | fromMont | add | sub | mul | pow | inv | eq | sample | ldzero | ldone
deriving DecidableEq, Repr

/-- A legal command: one constructor per row of spec/opcode_table.json. A constructor carries exactly the
operand sources its opcode may choose (R73), so no illegal form of R82 can be written as an Instr. -/
inductive Instr where
  /-- MONT_MUL, OP 0x01 (R125). -/
  | montMul (a : SrcA) (b : SrcB)
  /-- TO_MONT, OP 0x02 (R126). -/
  | toMont (a : SrcA)
  /-- FROM_MONT, OP 0x03 (R127). -/
  | fromMont (a : SrcA)
  /-- ADD, OP 0x04 (R142). -/
  | add (a : SrcA) (b : SrcB)
  /-- SUB, OP 0x05 (R143). -/
  | sub (a : SrcA) (b : SrcB)
  /-- MUL, OP 0x06 (R146). -/
  | mul (a : SrcA) (b : SrcB)
  /-- POW, OP 0x07 (R163): a is the base, b the exponent. -/
  | pow (a : SrcA) (b : SrcB)
  /-- INV, OP 0x08 (R164). -/
  | inv (a : SrcA)
  /-- EQ, OP 0x09 (R186). -/
  | eq (a : SrcA) (b : SrcB)
  /-- SAMPLE, OP 0x0A (R182). -/
  | sample
  /-- LDZERO, OP 0x0B (R188). -/
  | ldzero
  /-- LDONE, OP 0x0C (R189). -/
  | ldone
deriving DecidableEq, Repr

/-- The operation of a command. -/
def Instr.op : Instr → Op
  | .montMul _ _ => .montMul
  | .toMont _ => .toMont
  | .fromMont _ => .fromMont
  | .add _ _ => .add
  | .sub _ _ => .sub
  | .mul _ _ => .mul
  | .pow _ _ => .pow
  | .inv _ => .inv
  | .eq _ _ => .eq
  | .sample => .sample
  | .ldzero => .ldzero
  | .ldone => .ldone

/-- The AY bit of a command: its a source, and 0 for a command that reads no a (R71, R73). -/
def Instr.ay : Instr → Bool
  | .montMul a _ => a.bit
  | .toMont a => a.bit
  | .fromMont a => a.bit
  | .add a _ => a.bit
  | .sub a _ => a.bit
  | .mul a _ => a.bit
  | .pow a _ => a.bit
  | .inv a => a.bit
  | .eq a _ => a.bit
  | .sample => false
  | .ldzero => false
  | .ldone => false

/-- The BY bit of a command: its b source, and 0 for a command that reads no b (R71, R73). -/
def Instr.byBit : Instr → Bool
  | .montMul _ b => b.bit
  | .toMont _ => false
  | .fromMont _ => false
  | .add _ b => b.bit
  | .sub _ b => b.bit
  | .mul _ b => b.bit
  | .pow _ b => b.bit
  | .inv _ => false
  | .eq _ b => b.bit
  | .sample => false
  | .ldzero => false
  | .ldone => false

/-- A command as it is spelled, `MNEMONIC[.ay][.by]` (R84). Unlike Instr it can spell a suffix on a
mnemonic that does not read that operand, which R84 calls an assembly error: see WellFormed. -/
structure Asm where
  op : Op
  dotAy : Bool
  dotBy : Bool
deriving DecidableEq, Repr

/-- The mnemonic of an operation, as R80 spells it. -/
def Op.mnemonic : Op → String
  | .montMul => "MONT_MUL"
  | .toMont => "TO_MONT"
  | .fromMont => "FROM_MONT"
  | .add => "ADD"
  | .sub => "SUB"
  | .mul => "MUL"
  | .pow => "POW"
  | .inv => "INV"
  | .eq => "EQ"
  | .sample => "SAMPLE"
  | .ldzero => "LDZERO"
  | .ldone => "LDONE"

/-- The text of a spelled command: the suffixes in the order of R84. -/
def Asm.spell (c : Asm) : String :=
  c.op.mnemonic ++ (if c.dotAy then ".ay" else "") ++ (if c.dotBy then ".by" else "")

/-- The spelling of a legal command. -/
def Instr.toAsm (i : Instr) : Asm := ⟨i.op, i.ay, i.byBit⟩

end Sys2Proof
end

