-- ==== Sys2Proof/WellFormed.lean ====
section
/-! DEFINITION. Which spelled commands are commands: operand usage by opcode (spec/30_encoding.md R73) and
the assembly error of R84. -/

namespace Sys2Proof

/-- The opcodes that read operand a (R73): the two-operand and the one-operand opcodes. -/
def Op.readsA : Op → Bool
  | .montMul | .add | .sub | .mul | .pow | .eq => true
  | .toMont | .fromMont | .inv => true
  | .sample | .ldzero | .ldone => false

/-- The opcodes that read operand b (R73): the two-operand opcodes. -/
def Op.readsB : Op → Bool
  | .montMul | .add | .sub | .mul | .pow | .eq => true
  | .toMont | .fromMont | .inv => false
  | .sample | .ldzero | .ldone => false

/-- `.ay` only on a mnemonic that reads operand a (R84, R82). -/
def Asm.ayAllowed (c : Asm) : Bool := !c.dotAy || c.op.readsA

/-- `.by` only on a mnemonic that reads operand b (R84, R82). -/
def Asm.byAllowed (c : Asm) : Bool := !c.dotBy || c.op.readsB

/-- A spelled command that is no assembly error (R84). -/
def Asm.WellFormed (c : Asm) : Bool := c.ayAllowed && c.byAllowed

/-- A command is well formed when its spelling is. Every Instr is (Laws/Decode.lean): the constructors carry
only the sources their opcode may choose. -/
def Instr.WellFormed (i : Instr) : Bool := i.toAsm.WellFormed

end Sys2Proof
end

