-- ==== Sys2Proof/Decode.lean ====
section
/-! DEFINITION. Decoding and encoding a command word: format CMDW (spec/30_encoding.md R71), the opcode map
(R80), the match and mask table (R81) and the illegal words (R82). -/

namespace Sys2Proof

/-- Why a word is no command (R82). -/
inductive DecodeReject where
  /-- Bits 7:5 or 31:10 are not all 0. -/
  | reservedBits
  /-- OP is 0x00 or 0x0D to 0x1F. -/
  | reservedOpcode
  /-- AY or BY is 1 and the opcode does not read that operand. -/
  | operandNotRead
deriving DecidableEq, Repr

/-- OP, bits 4:0 (R71). -/
def opField (w : Word) : BitVec 5 := w.extractLsb' 0 5

/-- RSV0, bits 7:5 (R71). -/
def rsv0Field (w : Word) : BitVec 3 := w.extractLsb' 5 3

/-- AY, bit 8 (R71). -/
def ayField (w : Word) : Bool := w.getLsbD 8

/-- BY, bit 9 (R71). -/
def byField (w : Word) : Bool := w.getLsbD 9

/-- RSV1, bits 31:10 (R71). -/
def rsv1Field (w : Word) : BitVec 22 := w.extractLsb' 10 22

/-- A two-operand opcode: AY and BY are free (R81). -/
def twoOperand (mk : SrcA → SrcB → Instr) (ay by' : Bool) : Except DecodeReject Instr :=
  .ok (mk (SrcA.ofBit ay) (SrcB.ofBit by'))

/-- A one-operand opcode: AY is free, BY must be 0 (R81). -/
def oneOperand (mk : SrcA → Instr) (ay by' : Bool) : Except DecodeReject Instr :=
  if by' then .error .operandNotRead else .ok (mk (SrcA.ofBit ay))

/-- A zero-operand opcode: AY and BY must be 0 (R81). -/
def zeroOperand (i : Instr) (ay by' : Bool) : Except DecodeReject Instr :=
  if ay || by' then .error .operandNotRead else .ok i

/-- The opcode map (R80) with the operand forms of R81. -/
def decodeFields (op : BitVec 5) (ay by' : Bool) : Except DecodeReject Instr :=
  match op.toNat with
  | 0x01 => twoOperand .montMul ay by'
  | 0x02 => oneOperand .toMont ay by'
  | 0x03 => oneOperand .fromMont ay by'
  | 0x04 => twoOperand .add ay by'
  | 0x05 => twoOperand .sub ay by'
  | 0x06 => twoOperand .mul ay by'
  | 0x07 => twoOperand .pow ay by'
  | 0x08 => oneOperand .inv ay by'
  | 0x09 => twoOperand .eq ay by'
  | 0x0A => zeroOperand .sample ay by'
  | 0x0B => zeroOperand .ldzero ay by'
  | 0x0C => zeroOperand .ldone ay by'
  | _ => .error .reservedOpcode

/-- The decoder, total on 32-bit words (R83): exactly one command, or rejected by name (R82). -/
def decode (w : Word) : Except DecodeReject Instr :=
  if rsv0Field w ≠ 0 ∨ rsv1Field w ≠ 0 then .error .reservedBits
  else decodeFields (opField w) (ayField w) (byField w)

/-- The operation an opcode stands for, whatever AY and BY are (R80): the case of R202, which reads LOP
alone. -/
def opOfCode (op : BitVec 5) : Option Op :=
  match op.toNat with
  | 0x01 => some .montMul
  | 0x02 => some .toMont
  | 0x03 => some .fromMont
  | 0x04 => some .add
  | 0x05 => some .sub
  | 0x06 => some .mul
  | 0x07 => some .pow
  | 0x08 => some .inv
  | 0x09 => some .eq
  | 0x0A => some .sample
  | 0x0B => some .ldzero
  | 0x0C => some .ldone
  | _ => none

/-- The command of an operation and a choice of sources; sources the operation does not read are dropped. -/
def Instr.ofOp (op : Op) (a : SrcA) (b : SrcB) : Instr :=
  match op with
  | .montMul => .montMul a b
  | .toMont => .toMont a
  | .fromMont => .fromMont a
  | .add => .add a b
  | .sub => .sub a b
  | .mul => .mul a b
  | .pow => .pow a b
  | .inv => .inv a
  | .eq => .eq a b
  | .sample => .sample
  | .ldzero => .ldzero
  | .ldone => .ldone

/-- The OP field of an operation (R80). -/
def Op.code : Op → BitVec 5
  | .montMul => 0x01
  | .toMont => 0x02
  | .fromMont => 0x03
  | .add => 0x04
  | .sub => 0x05
  | .mul => 0x06
  | .pow => 0x07
  | .inv => 0x08
  | .eq => 0x09
  | .sample => 0x0A
  | .ldzero => 0x0B
  | .ldone => 0x0C

/-- A bit of the command word. -/
def bitAt (k : Nat) (v : Bool) : Word := if v then (1 : Word) <<< k else 0

/-- The word of an operation and its AY and BY bits, in format CMDW (R71). -/
def encodeFields (op : Op) (ay by' : Bool) : Word :=
  op.code.setWidth 32 ||| bitAt 8 ay ||| bitAt 9 by'

/-- The encoder: enc(M) of R84. -/
def encode (i : Instr) : Word := encodeFields i.op i.ay i.byBit

/-- Assembling a spelled command: its word, or nothing for the assembly error of R84. -/
def assemble (c : Asm) : Option Word :=
  if c.WellFormed then some (encodeFields c.op c.dotAy c.dotBy) else none

/-- One row of the match and mask table (R81). -/
structure TableRow where
  op : Op
  mask : Word
  pattern : Word
deriving DecidableEq, Repr

/-- The match and mask table (R81). DEDUCED (log 10): R81 and spec/opcode_table.json print the mask 0xFFFFFDFF
for the one-operand rows, which would leave bit 9 (BY) free and fix bit 8 (AY); R81's own words ("AY is free; BY
must be 0"), its bit patterns, R71, R73, R82 and R84 all say the opposite, which is 0xFFFFFEFF. -/
def opcodeTable : List TableRow :=
  [ ⟨.montMul, 0xFFFFFCFF, 0x00000001⟩,
    ⟨.toMont, 0xFFFFFEFF, 0x00000002⟩,
    ⟨.fromMont, 0xFFFFFEFF, 0x00000003⟩,
    ⟨.add, 0xFFFFFCFF, 0x00000004⟩,
    ⟨.sub, 0xFFFFFCFF, 0x00000005⟩,
    ⟨.mul, 0xFFFFFCFF, 0x00000006⟩,
    ⟨.pow, 0xFFFFFCFF, 0x00000007⟩,
    ⟨.inv, 0xFFFFFEFF, 0x00000008⟩,
    ⟨.eq, 0xFFFFFCFF, 0x00000009⟩,
    ⟨.sample, 0xFFFFFFFF, 0x0000000A⟩,
    ⟨.ldzero, 0xFFFFFFFF, 0x0000000B⟩,
    ⟨.ldone, 0xFFFFFFFF, 0x0000000C⟩ ]

/-- A word selects a row iff (w & mask) = match (R81). -/
def TableRow.selects (r : TableRow) (w : Word) : Bool := w &&& r.mask == r.pattern

/-- The instruction the decoder reads from a table word (the host's interface). A command is one 32-bit bus
word (R70), so bits above nbits are 0 and a table word wider than 32 bits is no command. -/
def decodeTableWord (nbits w : Nat) : Option Instr :=
  if nbits ≤ 32 then
    match decode (BitVec.ofNat 32 (w % 2 ^ nbits)) with
    | .ok i => some i
    | .error _ => none
  else none

end Sys2Proof
end

