-- ==== Sys2Proof/Machine/Limbs.lean ====
section
/-! DEFINITION. Limb vectors (spec/00_scope.md R13, R14): their integer value, the vector of an integer, bits,
and the passage between vectors and lists that the limb loops run on. -/

namespace Sys2Proof

/-- Σ x[i] · 2^(32 i) of a list of limbs, least significant first (R14). -/
def valList : List Word → Nat
  | [] => 0
  | x :: xs => x.toNat + 2 ^ 32 * valList xs

/-- val(x) (R14). -/
def val (x : Limbs) : Nat := valList x.toList

/-- limbs(v), for 0 ≤ v < 2^320 (R14). -/
def limbs (v : Nat) : Limbs := Vector.ofFn fun i => BitVec.ofNat 32 (v / 2 ^ (32 * i.val))

/-- The 10 limbs a limb loop has produced. -/
def ofWords (l : List Word) : Limbs := Vector.ofFn fun i => l.getD i.val 0

/-- Bit k of a 320-bit value: bit (k mod 32) of limb floor(k/32) (R13). -/
def limbBit (x : Limbs) (k : Nat) : Bool := (x.toList.getD (k / 32) 0).getLsbD (k % 32)

/-- zext_32 of a byte, as R181 uses it. -/
def zextByte (b : Byte) : Word := b.setWidth 32

end Sys2Proof
end

