-- ==== Sys2Proof/Machine/Rom.lean ====
section
/-! DEFINITION. The constant table ROM (spec/10_state.md R29, R30), limb 0 first. It holds these values at
every instant (R31, R232). -/

namespace Sys2Proof.Rom

/-- The modulus (R10, R30). -/
def n : Limbs := #v[0x948bffe1, 0xe80fd996, 0xd724a09c, 0xe8885c39, 0xcfb80639, 0x7fffffe6, 0x00000016,
  0x7ffffff1, 0x80000007, 0x7ffffffd]

/-- R2 = R² mod N, with R = 2^320 (R30). -/
def r2 : Limbs := #v[0xe33dc739, 0xa01001dc, 0x3f62accf, 0x6c3228d3, 0x91cf8525, 0xd1d796cc, 0x1574c1d8,
  0xaadfff5d, 0x8ca251f5, 0x4aca13b2]

/-- N0I, the negated inverse of N[0] mod 2^32 (R30). -/
def n0i : Word := 0x057b7bdf

/-- ZERO (R30). -/
def zero : Limbs := #v[0, 0, 0, 0, 0, 0, 0, 0, 0, 0]

/-- ONE (R30). -/
def one : Limbs := #v[0x00000001, 0, 0, 0, 0, 0, 0, 0, 0, 0]

/-- NM2 = N − 2, the exponent of inv (R30). -/
def nm2 : Limbs := #v[0x948bffdf, 0xe80fd996, 0xd724a09c, 0xe8885c39, 0xcfb80639, 0x7fffffe6, 0x00000016,
  0x7ffffff1, 0x80000007, 0x7ffffffd]

/-- RM = R mod N, the Montgomery form of one (R30). -/
def rm : Limbs := #v[0xd6e8003e, 0x2fe04cd2, 0x51b6bec6, 0x2eef478c, 0x608ff38c, 0x00000032, 0xffffffd3,
  0x0000001d, 0xfffffff1, 0x00000004]

end Sys2Proof.Rom

namespace Sys2Proof

/-- The modulus as an integer: val(N) (R10). -/
def modulus : Nat := val Rom.n

/-- A limb vector is canonical iff val(x) < N (R17). -/
abbrev Canonical (x : Limbs) : Prop := val x < modulus

end Sys2Proof
end

