-- ==== Sys2Proof/Machine/Primitives.lean ====
section
/-! DEFINITION. Raw limb arithmetic, select and the conditional reducers (spec/40_primitives.md R101 to R106),
and the full-width comparison and the byte-to-limb map of spec/44_sample_eq_const.md R181 and R185. -/

namespace Sys2Proof

/-- The loop of add_inner over limbs, from carry c: the sums mod 2^32 and the carry out (R101). -/
def addChain : List Word → List Word → Bool → List Word × Bool
  | x :: xs, y :: ys, c =>
    let s := x.toNat + y.toNat + c.toNat
    let rest := addChain xs ys (decide (2 ^ 32 ≤ s))
    (BitVec.ofNat 32 s :: rest.1, rest.2)
  | _, _, c => ([], c)

/-- add_inner(a, b): the carry out of limb 9 is discarded (R101). -/
def addInner (a b : Limbs) : Limbs := ofWords (addChain a.toList b.toList false).1

/-- The loop of sub_inner over limbs, from borrow br: the exact difference d mod 2^32, and a borrow where
d < 0 (R102). -/
def subChain : List Word → List Word → Bool → List Word × Bool
  | x :: xs, y :: ys, br =>
    let d : Int := (x.toNat : Int) - y.toNat - br.toNat
    let rest := subChain xs ys (decide (d < 0))
    (BitVec.ofInt 32 d :: rest.1, rest.2)
  | _, _, br => ([], br)

/-- The word of a borrow: all ones for a borrow, all zeros for none (R102). -/
def maskOf (borrow : Bool) : Word := if borrow then 0xFFFFFFFF else 0x00000000

/-- sub_inner(a, b): the unreduced difference and the borrow mask (R102). -/
def subInner (a b : Limbs) : Limbs × Word :=
  let r := subChain a.toList b.toList false
  (ofWords r.1, maskOf r.2)

/-- select(mask, a, b): the bitwise blend a ^ (mask & (a ^ b)) of each limb (R103). -/
def select (mask : Word) (a b : Limbs) : Limbs :=
  Vector.zipWith (fun x y => x ^^^ (mask &&& (x ^^^ y))) a b

/-- reduce_sub(r): subtract N and keep the difference unless that borrowed (R105). -/
def reduceSub (r : Limbs) : Limbs :=
  let d := subInner r Rom.n
  select d.2 d.1 r

/-- reduce_add(r, m): add N back where the mask says so (R106). -/
def reduceAdd (r : Limbs) (m : Word) : Limbs := select m r (addInner r Rom.n)

/-- feq(a, b): the per-limb XORs accumulated with OR are all zero (R185; 90_conflicts.md C5). -/
def feq (a b : Limbs) : Bool :=
  (List.zipWith (fun x y => x ^^^ y) a.toList b.toList).foldl (fun x d => x ||| d) 0 == 0

/-- E': the top byte E[39] with its two most significant bits cleared (R181). -/
def clearTop (e : Draw) : Draw := e.set 39 (e[39] &&& 0x3F)

/-- Limb i of the 40 bytes, little-endian: bytes 4i to 4i+3 (R181). -/
def leWord (e : Draw) (i : Nat) : Word :=
  let byteAt := fun k => zextByte (e.toList.getD (4 * i + k) 0)
  byteAt 0 ||| (byteAt 1 <<< 8) ||| (byteAt 2 <<< 16) ||| (byteAt 3 <<< 24)

/-- sample(E) (R181). -/
def sample (e : Draw) : Limbs := Vector.ofFn fun i => leWord (clearTop e) i.val

end Sys2Proof
end

