-- ==== Sys2Proof/Machine/Kernel.lean ====
section
/-! DEFINITION. The Montgomery multiplier (spec/41_montgomery.md R121, R122). Each function built on it carries
beside its value whether a top-limb sum cc1 + cc2 reached 2^32, which is what TOPLIMB_OVERFLOW = any asks. -/

namespace Sys2Proof

/-- A result of the datapath with the remark whether some kernel call of it overflowed in R122's sum. -/
structure Tracked where
  value : Limbs
  overflow : Bool
deriving DecidableEq, Repr

/-- A result that no kernel call went into. -/
def Tracked.exact (x : Limbs) : Tracked := ⟨x, false⟩

/-- Feeding a result into a further calculation: an overflow anywhere is remembered. -/
def Tracked.into (t : Tracked) (f : Limbs → Tracked) : Tracked :=
  let u := f t.value
  ⟨u.value, t.overflow || u.overflow⟩

/-- The inner loop of R121 over the limbs of a, N and r, from carries cc1 and cc2: the limbs t[j] and the two
carries out. z1 and z2 are exact; z[31:0] and z[63:32] are taken from them. -/
def kernelInner (m f : Word) : List Word → List Word → List Word → Word → Word → List Word × Word × Word
  | a :: as, n :: ns, r :: rs, cc1, cc2 =>
    let z1 := a.toNat * m.toNat + r.toNat + cc1.toNat
    let z2 := f.toNat * n.toNat + z1 % 2 ^ 32 + cc2.toNat
    let rest := kernelInner m f as ns rs (BitVec.ofNat 32 (z1 / 2 ^ 32)) (BitVec.ofNat 32 (z2 / 2 ^ 32))
    (BitVec.ofNat 32 z2 :: rest.1, rest.2)
  | _, _, _, cc1, cc2 => ([], cc1, cc2)

/-- The multiplier f = trunc_32(trunc_32(a[0] · m + r[0]) · N0I) (R121). -/
def kernelF (a r : List Word) (m : Word) : Word := (a.headD 0 * m + r.headD 0) * Rom.n0i

/-- top(cc1, cc2) = trunc_32(cc1 + cc2) (R122). -/
def topLimb (cc1 cc2 : Word) : Word := cc1 + cc2

/-- Does cc1 + cc2 reach 2^32 (R122)? -/
def topOverflows (cc1 cc2 : Word) : Bool := decide (2 ^ 32 ≤ cc1.toNat + cc2.toNat)

/-- One outer iteration of R121: the accumulator shifted down one limb with the top limb put in, and whether
the top limb overflowed. -/
def kernelStep (a r : List Word) (m : Word) : List Word × Bool :=
  let t := kernelInner m (kernelF a r m) a Rom.n.toList r 0 0
  (t.1.drop 1 ++ [topLimb t.2.1 t.2.2], topOverflows t.2.1 t.2.2)

/-- The outer loop of R121 over the limbs of b. -/
def kernelLoop (a : List Word) : List Word → List Word → Bool → List Word × Bool
  | [], r, ov => (r, ov)
  | m :: bs, r, ov =>
    let t := kernelStep a r m
    kernelLoop a bs t.1 (ov || t.2)

/-- mont_mul(a, b) with its overflow remark (R121, R122). -/
def kernel (a b : Limbs) : Tracked :=
  let t := kernelLoop a.toList b.toList Rom.zero.toList false
  ⟨reduceSub (ofWords t.1), t.2⟩

/-- mont_mul(a, b) as R121 writes it, with the top limb of TOPLIMB_OVERFLOW = wrap. -/
def montMul (a b : Limbs) : Limbs := (kernel a b).value

/-- to_mont(x) = mont_mul(x, R2) (R126). -/
def toMontT (x : Limbs) : Tracked := kernel x Rom.r2

/-- from_mont(x) = mont_mul(x, ONE) (R127). -/
def fromMontT (x : Limbs) : Tracked := kernel x Rom.one

/-- fadd(a, b) (R140). -/
def fadd (a b : Limbs) : Limbs := reduceSub (addInner a b)

/-- fsub(a, b) (R141). -/
def fsub (a b : Limbs) : Limbs :=
  let d := subInner a b
  reduceAdd d.1 d.2

/-- fmul(a, b) = mont_mul(mont_mul(a, R2), b) (R144). -/
def fmulT (a b : Limbs) : Tracked := (kernel a Rom.r2).into fun am => kernel am b

/-- The bits of an exponent, most significant first: e[k div 32][k mod 32] for k = 319 downto 0 (R160, R72). -/
def exponentBits (e : Limbs) : List Bool := (List.range 320).reverse.map (limbBit e)

/-- One iteration of R160: square, then multiply by the Montgomery base exactly when the bit is 1 (R161). The
accumulator is operand a of both calls. -/
def powStep (bm : Limbs) (acc : Limbs) (bit : Bool) : Tracked :=
  if bit then (kernel acc acc).into fun sq => kernel sq bm else kernel acc acc

/-- The loop of R160 over the exponent bits. -/
def powLoop (bm : Limbs) : List Bool → Limbs → Tracked
  | [], acc => .exact acc
  | bit :: bits, acc => (powStep bm acc bit).into (powLoop bm bits)

/-- fpow(base, e) (R160). -/
def fpowT (base e : Limbs) : Tracked :=
  (toMontT base).into fun bm => (powLoop bm (exponentBits e) Rom.rm).into fromMontT

/-- finv(a) = fpow(a, NM2) (R164). -/
def finvT (a : Limbs) : Tracked := fpowT a Rom.nm2

/-- to_mont, from_mont, fmul, fpow and finv as values, with TOPLIMB_OVERFLOW = wrap. -/
def toMont (x : Limbs) : Limbs := (toMontT x).value
def fromMont (x : Limbs) : Limbs := (fromMontT x).value
def fmul (a b : Limbs) : Limbs := (fmulT a b).value
def fpow (base e : Limbs) : Limbs := (fpowT base e).value
def finv (a : Limbs) : Limbs := (finvT a).value

end Sys2Proof
end

