-- ==== Sys2Proof/Machine/Operands.lean ====
section
/-! DEFINITION. Operands (spec/30_encoding.md R72, R73): which register supplies a and b, whether the limbs an
accepted command reads hold a value (spec/10_state.md R35), and the map of the register window
(spec/20_memory.md R50, R51). -/

namespace Sys2Proof.Machine

/-- Operand a: Y if AY = 1, else A (R72). -/
def operandA (ay : Bool) (s : State) : Limbs := if ay then s.y else s.a

/-- Operand b: Y if BY = 1, else B (R72). -/
def operandB (by' : Bool) (s : State) : Limbs := if by' then s.y else s.b

/-- Every limb of a register holds a value. -/
def allHeld (h : Vector Bool 10) : Bool := h.toList.all id

/-- Every limb of operand a holds a value (R35). -/
def heldA (ay : Bool) (s : State) : Bool := if ay then s.yHeld else allHeld s.aHeld

/-- Every limb of operand b holds a value (R35). -/
def heldB (by' : Bool) (s : State) : Bool := if by' then s.yHeld else allHeld s.bHeld

/-- The register operand a comes from. -/
def regOfA (ay : Bool) : DataReg := if ay then .Y else .A

/-- The register operand b comes from. -/
def regOfB (by' : Bool) : DataReg := if by' then .Y else .B

/-- The register a command reads that has a limb holding no value, operand a first (R208). An operand the
command does not read is not looked at (R35). -/
def missingOperand (i : Instr) (s : State) : Option DataReg :=
  if i.op.readsA && !heldA i.ay s then some (regOfA i.ay)
  else if i.op.readsB && !heldB i.byBit s then some (regOfB i.byBit)
  else none

/-- The registers of the window (R51). -/
inductive WindowReg where
  | a (i : Fin 10)
  | b (i : Fin 10)
  | y (i : Fin 10)
  | cmd
  | status
deriving DecidableEq, Repr

/-- The register at byte offset o of the window, o < 0x80 a multiple of 4 (R51). -/
def windowReg (o : Nat) : WindowReg :=
  if h : o < 0x28 then .a ⟨o / 4, by omega⟩
  else if h : o < 0x50 then .b ⟨(o - 0x28) / 4, by omega⟩
  else if h : o < 0x78 then .y ⟨(o - 0x50) / 4, by omega⟩
  else if o < 0x7C then .cmd
  else .status

/-- An address of the window [MM_BASE, MM_BASE + 0x80) (R50). -/
def inWindow (p : Params) (addr : Nat) : Bool := p.mmBase ≤ addr && addr < p.mmBase + 0x80

/-- The accesses the block accepts: 32 bits wide at a multiple of 4 (R52). -/
def accessAllowed (addr width : Nat) : Bool := width == 32 && addr % 4 == 0

end Sys2Proof.Machine
end

