-- ==== Sys2Proof/Machine/Ops.lean ====
section
/-! DEFINITION. The shared operations on the state: acceptance (spec/60_exceptions.md R200, R208), completion
(R202), raising an error (R205) and clearing it (R26), the registers of the window (spec/20_memory.md R51), the
ENTROPY draw (spec/44_sample_eq_const.md R180) and reset (spec/70_reset_and_hazards.md R230 to R232). -/

namespace Sys2Proof.Machine

/-- Acceptance of command word w: the operands are latched, LASTCMD takes w, BUSY <- 1 and DONE <- 0, in one
step (R200, R33). Nothing else changes. -/
def latch (w : Word) (s : State) : State :=
  { s with
    la := operandA (ayField w) s
    lb := operandB (byField w) s
    lop := opField w
    lay := ayField w
    lastCmd := w
    status := s.status.accept }

/-- Acceptance of a legal command: UNINIT where it reads a limb that holds no value, which R208, R230 and
R35 say is that fault (DATA_RESET = unspecified alone), else the latch. -/
def accept (i : Instr) (s : State) : Result :=
  match missingOperand i s with
  | some r => .fault (.uninit r)
  | none => .next (latch (encode i) s)

/-- A command's step: its completion if it is the accepted command in progress (BUSY = 1), else its acceptance
(R200, R201, R202). The bus never submits a command while BUSY = 1 (R206), and the core completes only while
BUSY = 1 (R201), so the two never meet (log 11). -/
def commandStep (i : Instr) (complete : State → State) (s : State) : Result :=
  if s.status.busy then .next (complete s) else accept i s

/-- TOPLIMB_OVERFLOW = any and an overflow in the command: its result is a free draw (R122). -/
def drawsFree (r : Tracked) (s : State) : Bool := s.params.topLimb == .any && r.overflow

/-- The value a command writes to Y (R122, R202). -/
def resultValue (r : Tracked) (s : State) : Limbs :=
  if drawsFree r s then Config.freeResult s.freeDraws else r.value

/-- The counter of free results moves on with each one drawn. -/
def freeDrawsAfter (r : Tracked) (s : State) : Nat :=
  if drawsFree r s then s.freeDraws + 1 else s.freeDraws

/-- Completion of a command that writes Y: all 10 limbs, BUSY <- 0 and DONE <- 1 in one step (R202, R54). -/
def completeY (r : Tracked) (s : State) : State :=
  { s with
    y := resultValue r s
    yHeld := true
    status := s.status.complete
    freeDraws := freeDrawsAfter r s }

/-- Completion of EQ: STATUS.EQ <- v, BUSY <- 0 and DONE <- 1, Y unchanged (R186, R202). -/
def completeEq (v : Bool) (s : State) : State :=
  { s with status := (s.status.setEq v).complete }

/-- The answer of ENTROPY to the next draw: the oldest queued one, else a free value (R180). -/
def entropyDraw (s : State) : Draw :=
  match s.entropy with
  | e :: _ => e
  | [] => Config.freeEntropy s.draws

/-- The draw is taken (R180). -/
def takeDraw (s : State) : State :=
  match s.entropy with
  | _ :: rest => { s with entropy := rest }
  | [] => { s with draws := s.draws + 1 }

/-- Taking an error of the interface: raise (R205). This block has no other exception entry (R212). -/
def raiseError (code : BitVec 4) (s : State) : State := { s with status := s.status.raise code }

/-- A host write to STATUS, which is what clears an error (R26, R212). -/
def writeStatus (v : Word) (s : State) : State := { s with status := s.status.hostWrite v }

/-- A[i] <- v (R21, R51). -/
def writeA (i : Fin 10) (v : Word) (s : State) : State :=
  { s with a := s.a.set i v, aHeld := s.aHeld.set i true }

/-- B[i] <- v (R22, R51). -/
def writeB (i : Fin 10) (v : Word) (s : State) : State :=
  { s with b := s.b.set i v, bHeld := s.bHeld.set i true }

/-- A limb as it is read: UNINIT where it holds no value, which R208, R230 and R35 say is that fault (DATA_RESET =
unspecified alone; the vector IF-23). -/
def readLimb (reg : DataReg) (held : Bool) (w : Word) : Except Fault Word :=
  if held then .ok w else .error (.uninit reg)

/-- The 32-bit value a register of the window reads as (R51). -/
def readReg (r : WindowReg) (s : State) : Except Fault Word :=
  match r with
  | .a i => readLimb .A s.aHeld[i] s.a[i]
  | .b i => readLimb .B s.bHeld[i] s.b[i]
  | .y i => readLimb .Y s.yHeld s.y[i]
  | .cmd => .ok s.lastCmd
  | .status => .ok s.status.word

/-- The block's answer to a bus access. -/
def respond (r : BusResponse) (s : State) : State := { s with response := r }

/-- The event at hand is taken off the queue. -/
def withInputs (l : List Event) (s : State) : State := { s with inputs := l }

/-- Reset of the block (R230 to R232): every piece of its state as State.resetWith gives it, for the same
parameters. The command in progress is abandoned. What is outside the block stays: the events to come, the
last answer, the entropy to come and the two counters of free values. -/
def resetBlock (s : State) : State :=
  { State.resetWith s.params with
    inputs := s.inputs
    response := s.response
    entropy := s.entropy
    draws := s.draws
    freeDraws := s.freeDraws }

end Sys2Proof.Machine
end

