-- ==== Sys2Proof/Machine/Exponent.lean ====
section
/-! DEFINITION. The commands POW and INV (spec/43_exponentiation.md R163, R164). -/

namespace Sys2Proof.Machine

/-- POW: Y <- fpow(LA, LB) at completion; b is the exponent (R163). -/
def execPow (sa : SrcA) (sb : SrcB) (s : State) : Result :=
  commandStep (.pow sa sb) (completeY (fpowT s.la s.lb)) s

/-- INV: Y <- fpow(LA, NM2) at completion (R164). -/
def execInv (sa : SrcA) (s : State) : Result :=
  commandStep (.inv sa) (completeY (finvT s.la)) s

end Sys2Proof.Machine
end

