-- ==== Sys2Proof/Machine/FieldArith.lean ====
section
/-! DEFINITION. The commands ADD, SUB and MUL (spec/42_field_arith.md R142, R143, R146). -/

namespace Sys2Proof.Machine

/-- ADD: Y <- fadd(LA, LB) at completion (R142). -/
def execAdd (sa : SrcA) (sb : SrcB) (s : State) : Result :=
  commandStep (.add sa sb) (completeY (.exact (fadd s.la s.lb))) s

/-- SUB: Y <- fsub(LA, LB) at completion (R143). -/
def execSub (sa : SrcA) (sb : SrcB) (s : State) : Result :=
  commandStep (.sub sa sb) (completeY (.exact (fsub s.la s.lb))) s

/-- MUL: Y <- fmul(LA, LB) at completion (R146). -/
def execMul (sa : SrcA) (sb : SrcB) (s : State) : Result :=
  commandStep (.mul sa sb) (completeY (fmulT s.la s.lb)) s

end Sys2Proof.Machine
end

