-- ==== Sys2Proof/Machine/Montgomery.lean ====
section
/-! DEFINITION. The commands MONT_MUL, TO_MONT and FROM_MONT (spec/41_montgomery.md R125 to R127). -/

namespace Sys2Proof.Machine

/-- MONT_MUL: Y <- mont_mul(LA, LB) at completion (R125). -/
def execMontMul (sa : SrcA) (sb : SrcB) (s : State) : Result :=
  commandStep (.montMul sa sb) (completeY (kernel s.la s.lb)) s

/-- TO_MONT: Y <- mont_mul(LA, R2) at completion (R126). -/
def execToMont (sa : SrcA) (s : State) : Result :=
  commandStep (.toMont sa) (completeY (toMontT s.la)) s

/-- FROM_MONT: Y <- mont_mul(LA, ONE) at completion (R127). -/
def execFromMont (sa : SrcA) (s : State) : Result :=
  commandStep (.fromMont sa) (completeY (fromMontT s.la)) s

end Sys2Proof.Machine
end

