-- ==== Sys2Proof/Machine/SampleEqConst.lean ====
section
/-! DEFINITION. The commands SAMPLE, EQ, LDZERO and LDONE (spec/44_sample_eq_const.md R182, R186, R188,
R189). -/

namespace Sys2Proof.Machine

/-- SAMPLE: E <- draw ENTROPY(40) ; Y <- sample(E) at completion (R182). -/
def execSample (s : State) : Result :=
  commandStep .sample (fun s => completeY (.exact (sample (entropyDraw s))) (takeDraw s)) s

/-- EQ: STATUS.EQ <- feq(LA, LB) at completion (R186). -/
def execEq (sa : SrcA) (sb : SrcB) (s : State) : Result :=
  commandStep (.eq sa sb) (completeEq (feq s.la s.lb)) s

/-- LDZERO: Y <- ZERO at completion (R188). -/
def execLdzero (s : State) : Result :=
  commandStep .ldzero (completeY (.exact Rom.zero)) s

/-- LDONE: Y <- ONE at completion (R189). -/
def execLdone (s : State) : Result :=
  commandStep .ldone (completeY (.exact Rom.one)) s

end Sys2Proof.Machine
end

