-- ==== Sys2Proof/Machine/Dispatch.lean ====
section
/-! DEFINITION. exec: one arm per command. -/

namespace Sys2Proof.Machine

def exec (i : Instr) (s : State) : Host.Outcome State Fault Refusal :=
  match i with
  | .montMul sa sb => Sys2Proof.Machine.execMontMul sa sb s
  | .toMont sa => Sys2Proof.Machine.execToMont sa s
  | .fromMont sa => Sys2Proof.Machine.execFromMont sa s
  | .add sa sb => Sys2Proof.Machine.execAdd sa sb s
  | .sub sa sb => Sys2Proof.Machine.execSub sa sb s
  | .mul sa sb => Sys2Proof.Machine.execMul sa sb s
  | .pow sa sb => Sys2Proof.Machine.execPow sa sb s
  | .inv sa => Sys2Proof.Machine.execInv sa s
  | .eq sa sb => Sys2Proof.Machine.execEq sa sb s
  | .sample => Sys2Proof.Machine.execSample s
  | .ldzero => Sys2Proof.Machine.execLdzero s
  | .ldone => Sys2Proof.Machine.execLdone s

end Sys2Proof.Machine
end

