-- ==== Sys2Proof/Machine/Bus.lean ====
section
/-! DEFINITION. The two ways the machine moves: a bus access of the host (spec/20_memory.md R50 to R53,
spec/60_exceptions.md R200, R203 to R207) and a turn of the core (R201, R202); and the events that carry them
(R59, R232). -/

namespace Sys2Proof.Machine

/-- Submission of command word w (R200): dropped with CMD_WHILE_BUSY while BUSY = 1, whatever w is (R206,
R207); ILLEGAL_CMD for a word that is no command (R204); else the command's acceptance. -/
def submit (w : Word) (s : State) : Result :=
  if s.status.busy then .next (raiseError codeCmdWhileBusy s)
  else
    match decode w with
    | .error _ => .next (raiseError codeIllegalCmd s)
    | .ok i => exec i s

/-- A host read of a register of the window: its value is the answer, nothing else changes (R51, R53). -/
def readAccess (r : WindowReg) (s : State) : Result :=
  match readReg r s with
  | .ok v => .next (respond (.value v) s)
  | .error f => .fault f

/-- A host write of v to a register of the window (R51). A write to Y is a bus error (R203). -/
def writeAccess (r : WindowReg) (addr : Nat) (v : Word) (s : State) : Result :=
  match r with
  | .a i => .next (respond .written (writeA i v s))
  | .b i => .next (respond .written (writeB i v s))
  | .y _ => .fault (.busError addr 32)
  | .cmd => submit v (respond .written s)
  | .status => .next (respond .written (writeStatus v s))

/-- The address of an access. -/
def BusAccess.addr : BusAccess → Nat
  | .read addr _ => addr
  | .write addr _ _ => addr

/-- The width of an access in bits. -/
def BusAccess.width : BusAccess → Nat
  | .read _ width => width
  | .write _ width _ => width

/-- A bus access: outside the window it is the platform's matter (R50); inside it, every access but an aligned
32-bit one is a bus error (R52, R203, R207), and the others reach the register at its offset (R51). -/
def busAccess (x : BusAccess) (s : State) : Result :=
  if !inWindow s.params x.addr then .refused (.outsideWindow x.addr)
  else if !accessAllowed x.addr x.width then .fault (.busError x.addr x.width)
  else
    match x with
    | .read addr _ => readAccess (windowReg (addr - s.params.mmBase)) s
    | .write addr _ v => writeAccess (windowReg (addr - s.params.mmBase)) addr v s

/-- The accepted command that has not completed: the operation is LOP (R202). Its sources are LAY and bit 9 of
LASTCMD; no completion looks at them. -/
def latchedInstr (s : State) : Option Instr :=
  match opOfCode s.lop with
  | some op => some (Instr.ofOp op (SrcA.ofBit s.lay) (SrcB.ofBit (byField s.lastCmd)))
  | none => none

/-- The CORE agent's turn: it has a step exactly when BUSY = 1, and that step is the completion of the accepted
command (R201, R202). Without one the turn passes. -/
def coreTurn (s : State) : Result :=
  if s.status.busy then
    match latchedInstr s with
    | some i => exec i s
    | none => .fault (.latchedOpcode s.lop)
  else .next s

/-- One event of the total order (R59). -/
def runEvent (e : Event) (s : State) : Result :=
  match e with
  | .bus x => busAccess x s
  | .core => coreTurn s
  | .reset => .next (resetBlock s)

/-- The state in which the next event is a host write of w to CMD with BUSY = 0, so that the write is a
submission (R200). -/
def submissionNext (w : Word) (s : State) : State :=
  { s with
    inputs := .bus (.write (s.params.mmBase + 0x78) 32 w) :: s.inputs
    status := { s.status with busy := false } }

end Sys2Proof.Machine
end

