-- ==== Sys2Proof/Machine/Step.lean ====
section
/-! DEFINITION. One step of the machine: the next event of the total order (spec/20_memory.md R59); with no
event queued, the core's turn (spec/60_exceptions.md R201: weak fairness). -/

namespace Sys2Proof.Machine

/-- One step. -/
def step (s : State) : Host.Outcome State Fault Refusal :=
  match s.inputs with
  | e :: rest => runEvent e (withInputs rest s)
  | [] => coreTurn s

/-- s with a command word where the machine takes its next command from: the block fetches nothing (R62); a
command is a host write to CMD (R200), so that write is put first in the queue, and BUSY is 0 so that the write
is a submission. -/
def State.withFetchWord (s : State) (nbits w : Nat) : State :=
  submissionNext (BitVec.ofNat 32 (w % 2 ^ nbits)) s

end Sys2Proof.Machine
end

