-- ==== Sys2Proof/Machine/Pseudo.lean ====
section
/-! DEFINITION. The pseudo-instructions of a host program as the bus accesses they expand to
(spec/30_encoding.md R85, R86). The statements of a host program stand in HostProgram.lean. -/

namespace Sys2Proof.Machine

/-- `wr OFF, V` (R85). -/
def wr (p : Params) (off : Nat) (v : Word) : Event := .bus (.write (p.mmBase + off) 32 v)

/-- `rd OFF` (R85); the value is the block's answer. -/
def rd (p : Params) (off : Nat) : Event := .bus (.read (p.mmBase + off) 32)

/-- `cmd M`: wr 0x78, enc(M) (R85). -/
def cmd (p : Params) (i : Instr) : Event := wr p 0x78 (encode i)

/-- Ten writes of the limbs of x in limb order, from offset off on. -/
def loadAt (p : Params) (off : Nat) (x : Limbs) : List Event :=
  (List.range 10).map fun i => wr p (off + 4 * i) (x.toList.getD i 0)

/-- `lda X` (R86). -/
def lda (p : Params) (x : Limbs) : List Event := loadAt p 0x00 x

/-- `ldb X` (R86). -/
def ldb (p : Params) (x : Limbs) : List Event := loadAt p 0x28 x

/-- `rdy -> T`: the ten reads of Y in limb order (R86). -/
def rdy (p : Params) : List Event := (List.range 10).map fun i => rd p (0x50 + 4 * i)

/-- `clrerr` (R86). -/
def clrerr (p : Params) : Event := wr p 0x7C 0x00000008

/-- A run of `wait` (R86): n polls of STATUS that still see BUSY = 1, the completion, and the poll that ends the
loop. Every n is a possible run (R201). -/
def wait (p : Params) (n : Nat) : List Event := List.replicate n (rd p 0x7C) ++ [.core, rd p 0x7C]

/-- A run of `op M`: cmd M ; wait (R86). -/
def runOp (p : Params) (i : Instr) (n : Nat) : List Event := cmd p i :: wait p n

end Sys2Proof.Machine
end

