-- ==== Sys2Proof/Machine/HostProgram.lean ====
section
/-! DEFINITION. Programs of the abstract host (spec/30_encoding.md R85, R86): the statements the spec writes its
host programs in, what each does to the block and to the host's temporaries, and the pseudo-instructions with
their labels as positions. The host is no part of State (log 16): it is a source of bus accesses
(spec/00_scope.md R19), and the core's turns fall between its statements (spec/60_exceptions.md R201). -/

namespace Sys2Proof.Machine

/-- A temporary of the host: one of t0, t1 and so on (R85), or limb i of a 10-limb temporary such as the T of
`rdy -> T` (R86), which is numbered where a program has several. -/
inductive HostTemp where
  | t (k : Nat)
  | limb (vector i : Nat)
deriving DecidableEq, Repr

/-- The V of `wr OFF, V` (R85): a literal, or what a temporary holds, as `lda T` writes it in program P5 of
spec/95_test_vectors.md. -/
inductive HostVal where
  | word (w : Word)
  | temp (k : HostTemp)
deriving DecidableEq, Repr

/-- A statement of a host program (R85). A label is the position of the statement it names. -/
inductive HostStmt where
  /-- `wr OFF, V`. -/
  | wr (off : Nat) (v : HostVal)
  /-- `rd OFF -> tK`. -/
  | rd (off : Nat) (k : HostTemp)
  /-- `bit1 tK, J, label`: a host branch, no operation of the block. -/
  | bit1 (k : HostTemp) (j label : Nat)
  /-- `halt`. -/
  | halt
deriving DecidableEq, Repr

/-- The host in the middle of a program: where it stands and what its temporaries hold, the latest value of
a temporary first. -/
structure HostView where
  position : Nat
  temps : List (HostTemp × Word)
deriving DecidableEq, Repr

/-- What one statement of the host leads to. -/
inductive HostOutcome where
  /-- The host and the block go on. -/
  | next (h : HostView) (s : State)
  /-- The program has ended: `halt`, or no statement is left. -/
  | ended
  /-- The access, or the core's turn, was a fault (R203, R208). -/
  | fault (f : Fault)
  /-- The access was refused. -/
  | refused (r : Refusal)
  /-- A use of a temporary that no `rd` has set: R85 gives it no value. -/
  | unsetTemp (k : HostTemp)
deriving DecidableEq, Repr

/-- What a temporary holds: the value its latest `rd` put there. -/
def HostView.temp (h : HostView) (k : HostTemp) : Option Word :=
  match h.temps.find? (fun e => e.1 == k) with
  | some e => some e.2
  | none => none

/-- Temporary k takes the value v. -/
def HostView.setTemp (h : HostView) (k : HostTemp) (v : Word) : HostView := { h with temps := (k, v) :: h.temps }

/-- The host stands at another statement. -/
def HostView.goTo (h : HostView) (position : Nat) : HostView := { h with position := position }

/-- The host goes on after an access: to the next statement, with the temporary a `rd` names holding what the
block answered. -/
def afterAccess (k : Option HostTemp) (h : HostView) (r : Result) : HostOutcome :=
  match r with
  | .next t =>
    match k, t.response with
    | some k, .value v => .next ((h.setTemp k v).goTo (h.position + 1)) t
    | _, _ => .next (h.goTo (h.position + 1)) t
  | .fault f => .fault f
  | .refused r => .refused r

/-- `wr OFF` of a value that is known (R85). -/
def hostWrite (off : Nat) (v : Word) (h : HostView) (s : State) : HostOutcome :=
  afterAccess none h (busAccess (.write (s.params.mmBase + off) 32 v) s)

/-- One statement of a host program (R85). -/
def hostStmt (i : HostStmt) (h : HostView) (s : State) : HostOutcome :=
  match i with
  | .wr off (.word v) => hostWrite off v h s
  | .wr off (.temp k) =>
    match h.temp k with
    | some v => hostWrite off v h s
    | none => .unsetTemp k
  | .rd off k => afterAccess (some k) h (busAccess (.read (s.params.mmBase + off) 32) s)
  | .bit1 k j label =>
    match h.temp k with
    | some v => .next (h.goTo (if v.getLsbD j then label else h.position + 1)) s
    | none => .unsetTemp k
  | .halt => .ended

/-- The host's next statement. -/
def hostStep (program : List HostStmt) (h : HostView) (s : State) : HostOutcome :=
  match program[h.position]? with
  | some i => hostStmt i h s
  | none => .ended

/-- Who moves next while a host program runs (R201): the host makes its next statement, or the core has its
turn. -/
inductive HostTurn where
  | host
  | core
deriving DecidableEq, Repr

/-- One turn of a host program's run. -/
def hostTurn (program : List HostStmt) (who : HostTurn) (h : HostView) (s : State) : HostOutcome :=
  match who with
  | .host => hostStep program h s
  | .core =>
    match coreTurn s with
    | .next t => .next h t
    | .fault f => .fault f
    | .refused r => .refused r

/-- A run of a host program in a given order of turns; every order is a possible run (R201). -/
def hostRun (program : List HostStmt) : List HostTurn → HostView → State → HostOutcome
  | [], h, s => .next h s
  | who :: turns, h, s =>
    match hostTurn program who h s with
    | .next h' t => hostRun program turns h' t
    | o => o

/-- The X of `lda X` and `ldb X` (R86): ten literal limbs, or a 10-limb temporary. -/
inductive HostVector where
  | limbs (x : Limbs)
  | temps (vector : Nat)
deriving DecidableEq, Repr

/-- Limb i of X. -/
def HostVector.limb (x : HostVector) (i : Nat) : HostVal :=
  match x with
  | .limbs x => .word (x.toList.getD i 0)
  | .temps vector => .temp (.limb vector i)

/-- `lda X` as host statements (R86). -/
def ldaStmts (x : HostVector) : List HostStmt := (List.range 10).map fun i => .wr (4 * i) (x.limb i)

/-- `ldb X` as host statements (R86). -/
def ldbStmts (x : HostVector) : List HostStmt := (List.range 10).map fun i => .wr (0x28 + 4 * i) (x.limb i)

/-- `rdy -> T` as host statements (R86), T a 10-limb temporary. -/
def rdyStmts (vector : Nat) : List HostStmt := (List.range 10).map fun i => .rd (0x50 + 4 * i) (.limb vector i)

/-- `clrerr` as a host statement (R86). -/
def clrerrStmt : HostStmt := .wr 0x7C (.word 0x00000008)

/-- `cmd M` as a host statement (R85). -/
def cmdStmt (i : Instr) : HostStmt := .wr 0x78 (.word (encode i))

/-- `wait` where it stands at position w (R86): the polling loop on bit 0 of STATUS, through t9. -/
def waitStmts (w : Nat) : List HostStmt := [.rd 0x7C (.t 9), .bit1 (.t 9) 0 w]

/-- `op M` where it stands at position p (R86): cmd M ; wait. -/
def opStmts (p : Nat) (i : Instr) : List HostStmt := cmdStmt i :: waitStmts (p + 1)

end Sys2Proof.Machine
end

