-- ==== Sys2Proof/Safety.lean ====
section
/-! DEFINITION. The terms statements about MM320 use: the legal values of the control state (spec/10_state.md
R26, R32; spec/60_exceptions.md R202, R210), operands that hold a value (R35), and what a command computes from
its operands (R202). -/

namespace Sys2Proof.Machine

/-- The legal values of the control state: those of R26 and R210, LASTCMD 0 or an accepted word (R25), and,
while a command is in progress, LOP and LAY as latched from LASTCMD (R33, R202). -/
structure Legal (s : State) : Prop where
  busyNotDone : s.status.busy = true → s.status.done = false
  noErrNoCode : s.status.err = false → s.status.errCode = 0
  errCodeKnown : s.status.errCode = 0 ∨ s.status.errCode = 1 ∨ s.status.errCode = 2
  lastCmdAccepted : s.lastCmd = 0 ∨ ∃ i, decode s.lastCmd = .ok i
  latchedFromLastCmd : s.status.busy = true →
    (∃ i, decode s.lastCmd = .ok i) ∧ s.lop = opField s.lastCmd ∧ s.lay = ayField s.lastCmd

/-- Every limb of A, B and Y holds a value (R35). -/
def AllHeld (s : State) : Prop :=
  (∀ i : Fin 10, s.aHeld[i] = true) ∧ (∀ i : Fin 10, s.bHeld[i] = true) ∧ s.yHeld = true

/-- Every limb that the acceptance of i latches into an operand i reads holds a value (R35, R208). -/
def OperandsHeld (i : Instr) (s : State) : Prop :=
  (i.op.readsA = true → if i.ay then s.yHeld = true else ∀ k : Fin 10, s.aHeld[k] = true) ∧
  (i.op.readsB = true → if i.byBit then s.yHeld = true else ∀ k : Fin 10, s.bHeld[k] = true)

/-- What a command other than EQ writes to Y, from its operands and the draw of SAMPLE (R202). -/
def resultOf (op : Op) (a b : Limbs) (d : Draw) : Option Tracked :=
  match op with
  | .montMul => some (kernel a b)
  | .toMont => some (kernel a Rom.r2)
  | .fromMont => some (kernel a Rom.one)
  | .add => some (.exact (fadd a b))
  | .sub => some (.exact (fsub a b))
  | .mul => some (fmulT a b)
  | .pow => some (fpowT a b)
  | .inv => some (fpowT a Rom.nm2)
  | .eq => none
  | .sample => some (.exact (sample d))
  | .ldzero => some (.exact Rom.zero)
  | .ldone => some (.exact Rom.one)

/-- The state in which a command that writes Y has completed with result y: nothing but Y, BUSY and DONE
differs (R202). -/
def completedWith (y : Limbs) (s : State) : State :=
  { s with y := y, yHeld := true, status := { s.status with busy := false, done := true } }

/-- s and t agree but for the hidden latches (R231). -/
def SameButLatches (s t : State) : Prop :=
  { s with la := t.la, lb := t.lb, lop := t.lop, lay := t.lay } = t

/-- Exactly one draw of ENTROPY was taken between s and t (R180): the oldest queued one, or, where none is queued, one
more of the counted free values (log 5). -/
def TookOneDraw (s t : State) : Prop :=
  (∃ e, s.entropy = e :: t.entropy ∧ t.draws = s.draws) ∨
    (s.entropy = [] ∧ t.entropy = [] ∧ t.draws = s.draws + 1)

/-- A run of k steps of the machine. -/
def run (k : Nat) (s : State) : Result := Host.Core.run Sys2Proof.core k s

end Sys2Proof.Machine
end

