-- ==== Sys2Proof/Certificates/Slice0/Obligations.lean ====
section
/-! DEFINITION. The statements about MM320 for the provers. Each follows the rules of spec/ its docstring names;
"the model's choice" marks a clause that rests on a log entry of notes/assumptions. -/

open Sys2Proof Sys2Proof.Machine

/-! ### Reset, parameters and the constant table -/

/-- R231: after reset LASTCMD and every STATUS field are 0 and STATUS reads 0x00000000; and the latches are
unobservable while BUSY = 0: states that differ in nothing but them step alike, and where the step is an acceptance
(BUSY = 1 after it) to the very same state, so that no old latch is left for the completion to show. -/
def Obligations.ResetControlIsZeroAndLatchesAreHidden : Prop :=
  (∀ p : Params,
    (State.resetWith p).lastCmd = 0x00000000 ∧
    (State.resetWith p).status = ⟨false, false, false, false, 0⟩ ∧
    readReg .status (State.resetWith p) = .ok 0x00000000) ∧
  (∀ (s : State) (la lb : Limbs) (lop : BitVec 5) (lay : Bool), s.status.busy = false →
    (∀ t, step s = .next t →
      ∃ t', step { s with la := la, lb := lb, lop := lop, lay := lay } = .next t' ∧ SameButLatches t t' ∧
        (t.status.busy = true → t' = t)) ∧
    (∀ f, step s = .fault f → step { s with la := la, lb := lb, lop := lop, lay := lay } = .fault f) ∧
    (∀ r, step s = .refused r → step { s with la := la, lb := lb, lop := lop, lay := lay } = .refused r))

/-- R230: with DATA_RESET = zero every limb of A, B and Y reads 0x00000000; with unspecified, reading a limb or
using it as an operand is the UNINIT fault, for every limb and every command that reads an operand. -/
def Obligations.ResetDataFollowsTheParameter : Prop :=
  (∀ p : Params, p.dataReset = .zero → ∀ k : Fin 10,
    readReg (.a k) (State.resetWith p) = .ok 0x00000000 ∧
    readReg (.b k) (State.resetWith p) = .ok 0x00000000 ∧
    readReg (.y k) (State.resetWith p) = .ok 0x00000000) ∧
  (∀ p : Params, p.dataReset = .unspecified →
    (∀ k : Fin 10,
      readReg (.a k) (State.resetWith p) = .error (.uninit .A) ∧
      readReg (.b k) (State.resetWith p) = .error (.uninit .B) ∧
      readReg (.y k) (State.resetWith p) = .error (.uninit .Y)) ∧
    (∀ i : Instr, i.op.readsA = true → ∃ r, exec i (State.resetWith p) = .fault (.uninit r)))

/-- R232: a reset, also while BUSY = 1, gives the state of R230 and R231; the command in progress is abandoned and
writes nothing. The model's choices: the latches, which R231 leaves unspecified, are zero after a reset (log 4); and
what stands outside the block is as before, which is the events to come (log 7), the last answer (log 8), the entropy
to come with its counter draws (log 5) and the counter freeDraws of free results (log 3). -/
def Obligations.ResetAbandonsTheCommand : Prop :=
  ∀ (s : State) (rest : List Event), s.inputs = .reset :: rest →
    step s = .next { State.resetWith s.params with
      inputs := rest, response := s.response, entropy := s.entropy, draws := s.draws, freeDraws := s.freeDraws }

/-- R10, R29, R30: the constants of ROM meet their definitions from the printed N. -/
def Obligations.RomConstantsMeetTheirDefinitions : Prop :=
  val Rom.n = 1067993516717146951041484916571792702745057740581727230159139685185762082554198619328292418486241 ∧
  val Rom.r2 = (2 ^ 320) ^ 2 % val Rom.n ∧
  Rom.n[0] * Rom.n0i = -1 ∧
  val Rom.zero = 0 ∧ val Rom.one = 1 ∧
  val Rom.nm2 = val Rom.n - 2 ∧
  val Rom.rm = 2 ^ 320 % val Rom.n

/-! ### Encoding -/

/-- R84, R81: words written out from the spec's encodings decode to the commands they stand for. -/
def Obligations.DecodeReadsWrittenOutWords : Prop :=
  decode 0x00000001 = .ok (.montMul .regA .regB) ∧
  decode 0x00000101 = .ok (.montMul .regY .regB) ∧
  decode 0x00000301 = .ok (.montMul .regY .regY) ∧
  decode 0x00000108 = .ok (.inv .regY) ∧
  decode 0x0000000A = .ok .sample ∧
  decode 0x00000206 = .ok (.mul .regA .regY) ∧
  decode 0x00000109 = .ok (.eq .regY .regB)

/-- R83, R71: decoding and encoding are inverse to each other on every word and every command, so no bit of a
word is dropped and no command has two words. -/
def Obligations.DecodeAndEncodeAreInverse : Prop :=
  ∀ (w : Word) (i : Instr), decode w = .ok i ↔ encode i = w

/-- R81: a word decodes to a mnemonic iff (w & mask) = match for that mnemonic's row, and at most one row matches
any word. The model's choice (log 10): the mask of the one-operand rows is 0xFFFFFEFF, which R81's words and bit
patterns ask for, and not the 0xFFFFFDFF it prints. -/
def Obligations.TableRowsSelectTheDecodedMnemonic : Prop :=
  ∀ w : Word,
    (∀ r ∈ opcodeTable, w &&& r.mask = r.pattern ↔ ∃ i, decode w = .ok i ∧ i.op = r.op) ∧
    (∀ r ∈ opcodeTable, ∀ r' ∈ opcodeTable,
      w &&& r.mask = r.pattern → w &&& r'.mask = r'.pattern → r = r')

/-- R82: the illegal words are exactly the listed forms; writing one while BUSY = 0 records ILLEGAL_CMD (code 1)
unless an error stands already, and changes nothing else of the block. -/
def Obligations.IllegalWordsStartNothing : Prop :=
  (∀ w : Word, (∃ e, decode w = .error e) ↔
    (opField w = 0x00 ∨ 0x0D ≤ (opField w).toNat ∨ w.extractLsb' 5 3 ≠ 0 ∨ w.extractLsb' 10 22 ≠ 0 ∨
      (w.getLsbD 9 = true ∧ (opField w = 0x02 ∨ opField w = 0x03 ∨ opField w = 0x08)) ∨
      ((w.getLsbD 8 = true ∨ w.getLsbD 9 = true) ∧
        (opField w = 0x0A ∨ opField w = 0x0B ∨ opField w = 0x0C)))) ∧
  (∀ (s : State) (rest : List Event) (w : Word) (e : DecodeReject),
    s.inputs = wr s.params 0x78 w :: rest → s.status.busy = false → decode w = .error e →
    step s = .next { s with
      inputs := rest
      response := .written
      status := { s.status with err := true, errCode := if s.status.err then s.status.errCode else 1 } })

/-- R73: AY may be 1 only for an opcode that reads a, BY only for one that reads b; and which opcodes read what. -/
def Obligations.OperandUsageByOpcode : Prop :=
  (∀ (w : Word) (i : Instr), decode w = .ok i →
    (w.getLsbD 8 = true → i.op.readsA = true) ∧ (w.getLsbD 9 = true → i.op.readsB = true)) ∧
  (∀ op : Op, (op.readsA = true ∧ op.readsB = true) ↔
    op = .montMul ∨ op = .add ∨ op = .sub ∨ op = .mul ∨ op = .pow ∨ op = .eq) ∧
  (∀ op : Op, (op.readsA = true ∧ op.readsB = false) ↔ op = .toMont ∨ op = .fromMont ∨ op = .inv) ∧
  (∀ op : Op, (op.readsA = false ∧ op.readsB = false) ↔ op = .sample ∨ op = .ldzero ∨ op = .ldone)

/-- R84: a spelled command is an assembly error exactly where a suffix stands on a mnemonic that does not read
that operand; otherwise its word decodes to the command so spelled. -/
def Obligations.AssemblyErrorsAndWords : Prop :=
  ∀ c : Asm,
    (assemble c = none ↔ (c.dotAy = true ∧ c.op.readsA = false) ∨ (c.dotBy = true ∧ c.op.readsB = false)) ∧
    (∀ w, assemble c = some w → ∃ i, decode w = .ok i ∧ i.toAsm = c)

/-! ### The register window -/

/-- R51, R52: an aligned 32-bit read at each offset of the window returns the register there, whether or not a
command is in progress (R23, R240), and changes nothing but the answer. -/
def Obligations.BusReadReturnsTheMappedRegister : Prop :=
  ∀ (s : State) (rest : List Event),
    (∀ k : Fin 10, s.inputs = rd s.params (0x00 + 4 * k.val) :: rest → s.aHeld[k] = true →
      step s = .next { s with inputs := rest, response := .value s.a[k] }) ∧
    (∀ k : Fin 10, s.inputs = rd s.params (0x28 + 4 * k.val) :: rest → s.bHeld[k] = true →
      step s = .next { s with inputs := rest, response := .value s.b[k] }) ∧
    (∀ k : Fin 10, s.inputs = rd s.params (0x50 + 4 * k.val) :: rest → s.yHeld = true →
      step s = .next { s with inputs := rest, response := .value s.y[k] }) ∧
    (s.inputs = rd s.params 0x78 :: rest →
      step s = .next { s with inputs := rest, response := .value s.lastCmd }) ∧
    (s.inputs = rd s.params 0x7C :: rest →
      step s = .next { s with inputs := rest, response := .value s.status.word })

/-- R51, R26: an aligned 32-bit write reaches A[k], B[k] or STATUS; a write to STATUS clears ERR and ERRCODE iff
its bit 3 is 1 and does nothing else. -/
def Obligations.BusWriteReachesTheMappedRegister : Prop :=
  ∀ (s : State) (rest : List Event) (v : Word),
    (∀ k : Fin 10, s.inputs = wr s.params (0x00 + 4 * k.val) v :: rest →
      step s = .next { s with inputs := rest, response := .written, a := s.a.set k v, aHeld := s.aHeld.set k true }) ∧
    (∀ k : Fin 10, s.inputs = wr s.params (0x28 + 4 * k.val) v :: rest →
      step s = .next { s with inputs := rest, response := .written, b := s.b.set k v, bHeld := s.bHeld.set k true }) ∧
    (s.inputs = wr s.params 0x7C v :: rest →
      (v.getLsbD 3 = true → step s = .next { s with
        inputs := rest, response := .written, status := { s.status with err := false, errCode := 0 } }) ∧
      (v.getLsbD 3 = false → step s = .next { s with inputs := rest, response := .written }))

/-- R26: the places of the STATUS fields, and the reserved bits that read as 0. -/
def Obligations.StatusWordLayout : Prop :=
  ∀ st : Status,
    st.word.getLsbD 0 = st.busy ∧ st.word.getLsbD 1 = st.done ∧ st.word.getLsbD 2 = st.eq ∧
    st.word.getLsbD 3 = st.err ∧ st.word.extractLsb' 4 4 = st.errCode ∧ st.word.extractLsb' 8 24 = 0

/-- R203: the accesses to the window that end in BUS_ERROR, with the address and width recorded, and no others:
a width other than 32, an address that is no multiple of 4, a write to offsets 0x50 to 0x77. -/
def Obligations.BusErrorAccesses : Prop :=
  ∀ (s : State) (rest : List Event) (x : BusAccess), s.inputs = .bus x :: rest →
    s.params.mmBase ≤ x.addr → x.addr < s.params.mmBase + 0x80 →
    ((x.width ≠ 32 ∨ x.addr % 4 ≠ 0 ∨
        ∃ v, x = .write x.addr 32 v ∧ s.params.mmBase + 0x50 ≤ x.addr ∧ x.addr < s.params.mmBase + 0x78) ↔
      step s = .fault (.busError x.addr x.width))

/-- R50 with the model's choice of log 9: an access whose address is outside the window is the platform's matter
and is refused under a name of its own. -/
def Obligations.AccessOutsideTheWindowIsRefused : Prop :=
  ∀ (s : State) (rest : List Event) (x : BusAccess), s.inputs = .bus x :: rest →
    (x.addr < s.params.mmBase ∨ s.params.mmBase + 0x80 ≤ x.addr) →
    step s = .refused (.outsideWindow x.addr)

/-- R53: reads have no side effects and are idempotent: a read changes nothing but the answer, and a second read
of the same address returns the same value. -/
def Obligations.ReadsHaveNoSideEffects : Prop :=
  ∀ (s t : State) (rest : List Event) (addr width : Nat),
    s.inputs = .bus (.read addr width) :: .bus (.read addr width) :: rest → step s = .next t →
    ∃ v, t = { s with inputs := .bus (.read addr width) :: rest, response := .value v } ∧
      step t = .next { s with inputs := rest, response := .value v }

/-- R51, R24: after a write to A[k] that register reads as the value written, and every other register of the
window reads as before; the same for B[k]. -/
def Obligations.WrittenLimbReadsBack : Prop :=
  ∀ (s t : State) (rest : List Event) (k : Fin 10) (v : Word), step s = .next t →
    (s.inputs = wr s.params (0x00 + 4 * k.val) v :: rest →
      readReg (.a k) t = .ok v ∧ ∀ r, r ≠ .a k → readReg r t = readReg r s) ∧
    (s.inputs = wr s.params (0x28 + 4 * k.val) v :: rest →
      readReg (.b k) t = .ok v ∧ ∀ r, r ≠ .b k → readReg r t = readReg r s)

/-! ### Submission and completion -/

/-- R200, R33 (what a step adds around exec): a host write to CMD with BUSY = 0 of a word that decodes to i is one
step of exec i, with the write taken off the queue and answered; and with BUSY = 1 the core's turn is one step of
exec of a command whose opcode is LOP. The model's choices: a turn stands in the queue or is what an empty queue means
(log 7), and exec holds both phases of a command, acceptance and completion (log 11). -/
def Obligations.StepRunsTheDecodedCommand : Prop :=
  (∀ (s : State) (rest : List Event) (w : Word) (i : Instr),
    s.inputs = wr s.params 0x78 w :: rest → s.status.busy = false → decode w = .ok i →
    step s = exec i { s with inputs := rest, response := .written }) ∧
  (∀ (s : State) (rest : List Event) (op : Op), s.status.busy = true → s.lop = op.code →
    ∃ i, i.op = op ∧
      (s.inputs = .core :: rest → step s = exec i { s with inputs := rest }) ∧
      (s.inputs = [] → step s = exec i s))

/-- R33: what acceptance latches; and R200: everything else is unchanged. -/
def Obligations.AcceptanceLatchesTheOperands : Prop :=
  ∀ (s : State) (rest : List Event) (w : Word) (i : Instr),
    s.inputs = wr s.params 0x78 w :: rest → s.status.busy = false → decode w = .ok i → OperandsHeld i s →
    step s = .next { s with
      inputs := rest
      response := .written
      la := if w.getLsbD 8 then s.y else s.a
      lb := if w.getLsbD 9 then s.y else s.b
      lop := w.extractLsb' 0 5
      lay := w.getLsbD 8
      lastCmd := w
      status := { s.status with busy := true, done := false } }

/-- R206: any CMD write while BUSY = 1, legal or illegal, is dropped with CMD_WHILE_BUSY (code 2), recorded unless
an error stands already; the command in progress and LASTCMD are not affected. -/
def Obligations.CommandWhileBusyIsDropped : Prop :=
  ∀ (s : State) (rest : List Event) (w : Word),
    s.inputs = wr s.params 0x78 w :: rest → s.status.busy = true →
    step s = .next { s with
      inputs := rest
      response := .written
      status := { s.status with err := true, errCode := if s.status.err then s.status.errCode else 2 } }

/-- R205: raise records the code if ERR was 0 and changes nothing if ERR was 1; a host write to STATUS with bit
3 = 1 clears both fields. -/
def Obligations.FirstErrorIsKept : Prop :=
  (∀ (s : State) (code : BitVec 4), s.status.err = false →
    raiseError code s = { s with status := { s.status with err := true, errCode := code } }) ∧
  (∀ (s : State) (code : BitVec 4), s.status.err = true → raiseError code s = s) ∧
  (∀ (s : State) (rest : List Event) (v : Word), s.inputs = wr s.params 0x7C v :: rest → v.getLsbD 3 = true →
    ∃ t, step s = .next t ∧ t.status.err = false ∧ t.status.errCode = 0)

/-- R208, R35: exactly where the UNINIT fault is raised. A read of a limb is that fault iff the limb holds no value;
with BUSY = 0 a command is that fault iff it reads an operand with such a limb, and is accepted iff it reads none; and
a step of any other kind (a core turn, a reset, a write of a limb or of STATUS, a read of CMD or STATUS, a CMD write
that is dropped or illegal, an access that is a bus error or outside the window) is never that fault. -/
def Obligations.UninitFaults : Prop :=
  (∀ (s : State) (rest : List Event) (k : Fin 10),
    (s.inputs = rd s.params (0x00 + 4 * k.val) :: rest → (step s = .fault (.uninit .A) ↔ s.aHeld[k] = false)) ∧
    (s.inputs = rd s.params (0x28 + 4 * k.val) :: rest → (step s = .fault (.uninit .B) ↔ s.bHeld[k] = false)) ∧
    (s.inputs = rd s.params (0x50 + 4 * k.val) :: rest → (step s = .fault (.uninit .Y) ↔ s.yHeld = false))) ∧
  (∀ (s : State) (i : Instr), s.status.busy = false →
    (¬ OperandsHeld i s ↔ ∃ r, exec i s = .fault (.uninit r)) ∧
    (OperandsHeld i s ↔ ∃ t, exec i s = .next t)) ∧
  (∀ s : State, (∃ r, step s = .fault (.uninit r)) ↔
    (∃ (rest : List Event) (k : Fin 10),
      (s.inputs = rd s.params (0x00 + 4 * k.val) :: rest ∧ s.aHeld[k] = false) ∨
      (s.inputs = rd s.params (0x28 + 4 * k.val) :: rest ∧ s.bHeld[k] = false) ∨
      (s.inputs = rd s.params (0x50 + 4 * k.val) :: rest ∧ s.yHeld = false)) ∨
    (∃ (rest : List Event) (w : Word) (i : Instr), s.inputs = wr s.params 0x78 w :: rest ∧
      s.status.busy = false ∧ decode w = .ok i ∧ ¬ OperandsHeld i s))

/-- The model's choice (log 7): without a command in progress a core turn, queued or at an empty queue, is a step
that passes without effect. R201 gives the core no step there; it is the model that has one. -/
def Obligations.CoreIsIdleWithoutACommand : Prop :=
  ∀ s : State, s.status.busy = false →
    (∀ rest, s.inputs = .core :: rest → step s = .next { s with inputs := rest }) ∧
    (s.inputs = [] → step s = .next s)

/-- R201 (weak fairness, as the empty queue of log 7 renders it) and R202: with no event queued a command in
progress completes. -/
def Obligations.EmptyQueueCompletesTheCommand : Prop :=
  ∀ s : State, Legal s → s.status.busy = true → s.inputs = [] →
    ∃ t, step s = .next t ∧ t.status.busy = false ∧ t.status.done = true

/-- R202: what the completion writes for each value of LOP, with TOPLIMB_OVERFLOW = wrap; for every command but EQ
nothing but Y, BUSY and DONE changes, and EQ changes STATUS.EQ in place of Y. SAMPLE takes its draw besides. The
model's choices: the completion is the step at an empty queue (log 7), and a draw is the oldest of a queue or, where
none is queued, a counted free value (log 5). -/
def Obligations.CompletionByOpcode : Prop :=
  ∀ s : State, s.status.busy = true → s.inputs = [] → s.params.topLimb = .wrap →
    (s.lop = 0x01 → step s = .next (completedWith (montMul s.la s.lb) s)) ∧
    (s.lop = 0x02 → step s = .next (completedWith (montMul s.la Rom.r2) s)) ∧
    (s.lop = 0x03 → step s = .next (completedWith (montMul s.la Rom.one) s)) ∧
    (s.lop = 0x04 → step s = .next (completedWith (fadd s.la s.lb) s)) ∧
    (s.lop = 0x05 → step s = .next (completedWith (fsub s.la s.lb) s)) ∧
    (s.lop = 0x06 → step s = .next (completedWith (montMul (montMul s.la Rom.r2) s.lb) s)) ∧
    (s.lop = 0x07 → step s = .next (completedWith (fpow s.la s.lb) s)) ∧
    (s.lop = 0x08 → step s = .next (completedWith (fpow s.la Rom.nm2) s)) ∧
    (s.lop = 0x09 → step s = .next { s with
      status := { s.status with eq := feq s.la s.lb, busy := false, done := true } }) ∧
    (s.lop = 0x0A → ∀ e es, s.entropy = e :: es →
      step s = .next { completedWith (sample e) s with entropy := es }) ∧
    (s.lop = 0x0A → s.entropy = [] →
      ∃ e, step s = .next { completedWith (sample e) s with draws := s.draws + 1 }) ∧
    (s.lop = 0x0B → step s = .next (completedWith Rom.zero s)) ∧
    (s.lop = 0x0C → step s = .next (completedWith Rom.one s))

/-- R125, R126, R127, R146, R163, R164 at completion: each command built on the kernel completes, whatever its
sources, with its datapath value, whenever TOPLIMB_OVERFLOW = wrap or no top-limb sum overflowed. -/
def Obligations.KernelCommandsComplete : Prop :=
  ∀ (s : State) (sa : SrcA) (sb : SrcB), s.status.busy = true →
    ((s.params.topLimb = .wrap ∨ (kernel s.la s.lb).overflow = false) →
      exec (.montMul sa sb) s = .next (completedWith (kernel s.la s.lb).value s)) ∧
    ((s.params.topLimb = .wrap ∨ (kernel s.la Rom.r2).overflow = false) →
      exec (.toMont sa) s = .next (completedWith (kernel s.la Rom.r2).value s)) ∧
    ((s.params.topLimb = .wrap ∨ (kernel s.la Rom.one).overflow = false) →
      exec (.fromMont sa) s = .next (completedWith (kernel s.la Rom.one).value s)) ∧
    ((s.params.topLimb = .wrap ∨ (fmulT s.la s.lb).overflow = false) →
      exec (.mul sa sb) s = .next (completedWith (fmulT s.la s.lb).value s)) ∧
    ((s.params.topLimb = .wrap ∨ (fpowT s.la s.lb).overflow = false) →
      exec (.pow sa sb) s = .next (completedWith (fpowT s.la s.lb).value s)) ∧
    ((s.params.topLimb = .wrap ∨ (fpowT s.la Rom.nm2).overflow = false) →
      exec (.inv sa) s = .next (completedWith (fpowT s.la Rom.nm2).value s))

/-- R122, TOPLIMB_OVERFLOW = any: a command whose kernel overflowed in a top-limb sum completes all the same, with
some value in Y about which nothing is said; the counter of free results moves on. -/
def Obligations.OverflowUnderAnyCompletesWithAFreeValue : Prop :=
  ∀ (s : State) (i : Instr) (r : Tracked), s.status.busy = true → s.params.topLimb = .any →
    resultOf i.op s.la s.lb (entropyDraw s) = some r → r.overflow = true →
    ∃ y, exec i s = .next { completedWith y s with freeDraws := s.freeDraws + 1 }

/-- R142, R143, R188, R189 at completion: ADD, SUB, LDZERO and LDONE complete with their values, for every
parameter. -/
def Obligations.AddSubAndConstantsComplete : Prop :=
  ∀ (s : State) (sa : SrcA) (sb : SrcB), s.status.busy = true →
    exec (.add sa sb) s = .next (completedWith (fadd s.la s.lb) s) ∧
    exec (.sub sa sb) s = .next (completedWith (fsub s.la s.lb) s) ∧
    exec .ldzero s = .next (completedWith Rom.zero s) ∧
    exec .ldone s = .next (completedWith Rom.one s)

/-- R182, R180: SAMPLE completes with sample(E) of the oldest queued answer of ENTROPY, and of some 40 bytes where
none is queued (a free value, log 5); one draw is taken. -/
def Obligations.SampleCompletes : Prop :=
  ∀ s : State, s.status.busy = true →
    (∀ e es, s.entropy = e :: es → exec .sample s = .next { completedWith (sample e) s with entropy := es }) ∧
    (s.entropy = [] → ∃ e, exec .sample s = .next { completedWith (sample e) s with draws := s.draws + 1 })

/-- R186, R187: EQ completes with STATUS.EQ = 1 exactly where the two latched vectors are the same limb for limb
(congruent but distinct ones give 0), Y unchanged; the comparison is reflexive and symmetric. -/
def Obligations.EqComparesRepresentations : Prop :=
  (∀ (s : State) (sa : SrcA) (sb : SrcB), s.status.busy = true →
    exec (.eq sa sb) s = .next { s with
      status := { s.status with eq := decide (s.la = s.lb), busy := false, done := true } }) ∧
  (∀ a : Limbs, feq a a = true) ∧
  (∀ a b : Limbs, feq a b = feq b a) ∧
  (∀ a b : Limbs, feq a b = true ↔ ∀ k : Fin 10, a[k] = b[k])

/-- R202 (with R200's acceptance): submitting a command from an idle state whose operands hold values and letting
the core move gives, in two steps, Y = the command's function of the registers AY and BY name, whenever
TOPLIMB_OVERFLOW = wrap or no top-limb sum overflowed; and for EQ, STATUS.EQ = whether those registers are the same,
with Y unchanged. The model's choice: the core's turn is an event of the queue (log 7). -/
def Obligations.SubmittedCommandYieldsItsResult : Prop :=
  (∀ (s : State) (i : Instr) (r : Tracked), s.inputs = [cmd s.params i, .core] → s.status.busy = false →
    OperandsHeld i s → (s.params.topLimb = .wrap ∨ r.overflow = false) →
    resultOf i.op (if i.ay then s.y else s.a) (if i.byBit then s.y else s.b) (entropyDraw s) = some r →
    ∃ t, run 2 s = .next t ∧ t.y = r.value ∧ t.a = s.a ∧ t.b = s.b ∧ t.lastCmd = encode i ∧
      t.status = { s.status with busy := false, done := true }) ∧
  (∀ (s : State) (sa : SrcA) (sb : SrcB), s.inputs = [cmd s.params (.eq sa sb), .core] → s.status.busy = false →
    OperandsHeld (.eq sa sb) s →
    ∃ t, run 2 s = .next t ∧ t.y = s.y ∧ t.yHeld = s.yHeld ∧ t.a = s.a ∧ t.b = s.b ∧
      t.lastCmd = encode (.eq sa sb) ∧
      t.status = { s.status with
        eq := decide ((if sa.bit then s.y else s.a) = (if sb.bit then s.y else s.b)), busy := false, done := true })

/-- R201, R62, R243: whatever the host does on the bus between acceptance and completion (resets left out), the
command's result is that of its latched operands: after any accepted accesses the core's turn leaves in Y and EQ
what it would have left at once, with the same entropy and the same free values taken. The model's choices: at an
empty queue the step is the core's turn (log 7), and what is taken shows in the queue entropy and the counters draws
(log 5) and freeDraws (log 3). -/
def Obligations.HostAccessesDoNotChangeTheResult : Prop :=
  ∀ (xs : List BusAccess) (s t : State), Legal s → s.status.busy = true →
    s.inputs = xs.map Event.bus → run xs.length s = .next t →
    ∃ u v, step { s with inputs := [] } = .next u ∧ step t = .next v ∧
      v.y = u.y ∧ v.status.eq = u.status.eq ∧ v.status.busy = false ∧ v.status.done = true ∧
      v.lastCmd = s.lastCmd ∧ v.entropy = u.entropy ∧ v.draws = u.draws ∧ v.freeDraws = u.freeDraws

/-! ### What the functions compute -/

/-- R123: MONT_MUL with a canonical operand a completes, for every b and every parameter, with the canonical
representative of val(a) · val(b) · R^(−1) mod N; R = 2^320. -/
def Obligations.MontMulOfACanonicalOperand : Prop :=
  ∀ (s : State) (sa : SrcA) (sb : SrcB), s.status.busy = true → Canonical s.la →
    ∃ y, exec (.montMul sa sb) s = .next (completedWith y s) ∧ Canonical y ∧
      val y * 2 ^ 320 % modulus = val s.la * val s.lb % modulus

/-- R128, R126: TO_MONT of a canonical x completes with val(x) · R mod N, and FROM_MONT of that result returns
exactly x; ONE goes to RM and back. -/
def Obligations.DomainRoundTrip : Prop :=
  (∀ x : Limbs, Canonical x → fromMont (toMont x) = x) ∧
  (toMont Rom.one = Rom.rm ∧ fromMont Rom.rm = Rom.one) ∧
  (∀ (s : State) (sa : SrcA), s.status.busy = true → Canonical s.la →
    ∃ t u v, exec (.toMont sa) s = .next t ∧ val t.y = val s.la * 2 ^ 320 % modulus ∧
      exec (.fromMont .regY) t = .next u ∧ exec (.fromMont .regY) u = .next v ∧ v.y = s.la)

/-- R127: FROM_MONT of a canonical x completes with the canonical representative of val(x) · R^(−1) mod N. -/
def Obligations.FromMontOfACanonicalOperand : Prop :=
  ∀ (s : State) (sa : SrcA), s.status.busy = true → Canonical s.la →
    ∃ y, exec (.fromMont sa) s = .next (completedWith y s) ∧ Canonical y ∧
      val y * 2 ^ 320 % modulus = val s.la % modulus

/-- R145(a): ADD with val(a) + val(b) < 2N completes with the canonical (val(a) + val(b)) mod N; otherwise with
the sum mod 2^320 reduced by at most one N. -/
def Obligations.AddReducesOnce : Prop :=
  ∀ (s : State) (sa : SrcA) (sb : SrcB), s.status.busy = true →
    ∃ y, exec (.add sa sb) s = .next (completedWith y s) ∧
      (val s.la + val s.lb < 2 * modulus → val y = (val s.la + val s.lb) % modulus) ∧
      (2 * modulus ≤ val s.la + val s.lb → y = reduceSub (limbs ((val s.la + val s.lb) % 2 ^ 320)))

/-- R145(b): SUB completes with val(a) − val(b) without a borrow and with (val(a) − val(b) + N) mod 2^320 with
one, canonical iff the difference allows; for canonical operands that is (val(a) − val(b)) mod N. -/
def Obligations.SubAddsBackOnce : Prop :=
  ∀ (s : State) (sa : SrcA) (sb : SrcB), s.status.busy = true →
    ∃ y, exec (.sub sa sb) s = .next (completedWith y s) ∧
      (val s.lb ≤ val s.la → val y = val s.la - val s.lb) ∧
      (val s.la < val s.lb → (val y : Int) = ((val s.la : Int) - val s.lb + modulus) % 2 ^ 320) ∧
      (val s.la < val s.lb → (Canonical y ↔ val s.lb - val s.la ≤ modulus)) ∧
      (Canonical s.la → Canonical s.lb → Canonical y ∧ (val y : Int) = ((val s.la : Int) - val s.lb) % modulus)

/-- R145(c): MUL with a canonical a completes, for every b and every parameter, with val(a) · val(b) mod N. -/
def Obligations.MulOfACanonicalOperand : Prop :=
  ∀ (s : State) (sa : SrcA) (sb : SrcB), s.status.busy = true → Canonical s.la →
    ∃ y, exec (.mul sa sb) s = .next (completedWith y s) ∧ val y = val s.la * val s.lb % modulus

/-- R162(a), (b): POW with a canonical base completes, for every exponent and every parameter, with
val(base)^val(e) mod N (0^0 = 1); with any base and TOPLIMB_OVERFLOW = wrap its result is canonical. -/
def Obligations.PowOfACanonicalBase : Prop :=
  ∀ (s : State) (sa : SrcA) (sb : SrcB), s.status.busy = true →
    (Canonical s.la → ∃ y, exec (.pow sa sb) s = .next (completedWith y s) ∧
      val y = val s.la ^ val s.lb % modulus) ∧
    (s.params.topLimb = .wrap → ∃ y, exec (.pow sa sb) s = .next (completedWith y s) ∧ Canonical y)

/-- R163's corner cases, with TOPLIMB_OVERFLOW = wrap: exponent ZERO gives ONE for every base; exponent ONE gives a
canonical base back; base ZERO with another exponent gives ZERO; base ONE gives ONE; exponent N - 1 gives ONE for every
canonical base that satisfies Fermat's identity val(base)^(N - 1) mod N = 1 (by R11's primality of N every base ≠ ZERO
does; that N is prime is not part of this statement); an exponent ≥ N is not reduced; and POW.AY.BY latches Y as base
and as exponent, and raises a canonical Y to the power val(Y). -/
def Obligations.PowCornerCases : Prop :=
  (∀ (s : State) (sa : SrcA) (sb : SrcB), s.status.busy = true → s.params.topLimb = .wrap →
    (s.lb = Rom.zero → exec (.pow sa sb) s = .next (completedWith Rom.one s)) ∧
    (s.lb = Rom.one → Canonical s.la → exec (.pow sa sb) s = .next (completedWith s.la s)) ∧
    (s.la = Rom.zero → s.lb ≠ Rom.zero → exec (.pow sa sb) s = .next (completedWith Rom.zero s)) ∧
    (s.la = Rom.one → exec (.pow sa sb) s = .next (completedWith Rom.one s)) ∧
    (val s.lb = modulus - 1 → Canonical s.la → val s.la ^ (modulus - 1) % modulus = 1 →
      exec (.pow sa sb) s = .next (completedWith Rom.one s)) ∧
    (modulus ≤ val s.lb → Canonical s.la → ∃ y, exec (.pow sa sb) s = .next (completedWith y s) ∧ Canonical y ∧
      val y = val s.la ^ val s.lb % modulus)) ∧
  (∀ s : State, s.status.busy = false → s.yHeld = true → Canonical s.y →
    ∃ t u, exec (.pow .regY .regY) s = .next t ∧ exec (.pow .regY .regY) t = .next u ∧ Canonical u.y ∧
      val u.y = val s.y ^ val s.y % modulus)

/-- R165: INV of ZERO completes normally, writes Y = ZERO and records no error: nothing but Y, BUSY and DONE
changes; and its exponent NM2 is not zero. -/
def Obligations.InvOfZeroIsZero : Prop :=
  (∀ (s : State) (sa : SrcA), s.status.busy = true → s.la = Rom.zero →
    exec (.inv sa) s = .next (completedWith Rom.zero s)) ∧
  val Rom.nm2 ≠ 0

/-- R164 with R162(a): INV of a canonical a completes with val(a)^(N − 2) mod N; and MUL of a by that result is
ONE for every canonical a that satisfies Fermat's identity val(a)^(N − 1) mod N = 1 (by R11's primality of N every
a ≠ ZERO does; that N is prime is not part of this statement). -/
def Obligations.InvIsThePowerNMinusTwo : Prop :=
  ∀ (s : State) (sa : SrcA), s.status.busy = true → Canonical s.la →
    ∃ y, exec (.inv sa) s = .next (completedWith y s) ∧ val y = val s.la ^ (modulus - 2) % modulus ∧
      (val s.la ^ (modulus - 1) % modulus = 1 → fmul s.la y = Rom.one)

/-- R147: the source's algebraic laws for canonical operands. -/
def Obligations.AlgebraicLaws : Prop :=
  ∀ a b : Limbs, Canonical a → Canonical b →
    fsub (fadd a b) a = b ∧ fsub (fsub (fadd a b) a) b = Rom.zero ∧
    fmul a Rom.one = a ∧ fadd a Rom.zero = a

/-- R183: every result of sample is below 2^318, below N; every value below 2^318 comes up, and two draws give the
same value exactly when they agree in all but the two cleared bits. -/
def Obligations.SampleRange : Prop :=
  (∀ e : Draw, val (sample e) < 2 ^ 318 ∧ Canonical (sample e)) ∧
  (∀ v, v < 2 ^ 318 → ∃ e : Draw, val (sample e) = v) ∧
  (∀ e e' : Draw, sample e = sample e' ↔
    (∀ k : Fin 39, e[k.val] = e'[k.val]) ∧ e[39].extractLsb' 0 6 = e'[39].extractLsb' 0 6)

/-- R124: the low limb t[0] of an outer iteration is 0, for every a, accumulator and multiplier limb. -/
def Obligations.LowLimbIsCancelled : Prop :=
  ∀ (a r : Limbs) (m : Word),
    (kernelInner m (kernelF a.toList r.toList m) a.toList Rom.n.toList r.toList 0 0).1[0]? = some 0

/-- R122, R123: for operands within the precondition (val(a) < N) TOPLIMB_OVERFLOW changes nothing: every command
leaves the same Y under wrap and under any. -/
def Obligations.TopLimbParameterIsIrrelevantWithinThePrecondition : Prop :=
  ∀ (s t u : State) (i : Instr), s.status.busy = true → Canonical s.la →
    exec i { s with params := { s.params with topLimb := .wrap } } = .next t →
    exec i { s with params := { s.params with topLimb := .any } } = .next u →
    u.y = t.y ∧ u.status = t.status ∧ u.freeDraws = s.freeDraws

/-! ### Frames, invariants and whole-machine rules -/

/-- R202, R23, R21, R22, R28 (frame of every completion): when a command completes, A, B, LASTCMD, the latches,
ERR, ERRCODE, the parameters, the queue and the answer are unchanged; EQ changes only by the EQ command, Y and the
draws only by the others, and the entropy only by SAMPLE. -/
def Obligations.CompletionFrame : Prop :=
  ∀ (i : Instr) (s t : State), s.status.busy = true → exec i s = .next t →
    (t.a = s.a ∧ t.b = s.b ∧ t.aHeld = s.aHeld ∧ t.bHeld = s.bHeld ∧ t.lastCmd = s.lastCmd) ∧
    (t.la = s.la ∧ t.lb = s.lb ∧ t.lop = s.lop ∧ t.lay = s.lay) ∧
    (t.status.busy = false ∧ t.status.done = true ∧ t.status.err = s.status.err ∧
      t.status.errCode = s.status.errCode) ∧
    (t.params = s.params ∧ t.inputs = s.inputs ∧ t.response = s.response) ∧
    (i.op ≠ .eq → t.status.eq = s.status.eq) ∧
    (i.op = .eq → t.y = s.y ∧ t.yHeld = s.yHeld ∧ t.freeDraws = s.freeDraws) ∧
    (i.op ≠ .sample → t.entropy = s.entropy ∧ t.draws = s.draws)

/-- R62, R206, R243: no bus access, accepted or turned away, touches a command in progress: its latches, BUSY,
DONE, EQ, LASTCMD, Y and the entropy are unchanged. -/
def Obligations.BusAccessesLeaveTheRunningCommandAlone : Prop :=
  ∀ (s t : State) (x : BusAccess) (rest : List Event), s.status.busy = true → s.inputs = .bus x :: rest →
    step s = .next t →
    t.la = s.la ∧ t.lb = s.lb ∧ t.lop = s.lop ∧ t.lay = s.lay ∧ t.lastCmd = s.lastCmd ∧ t.y = s.y ∧
    t.yHeld = s.yHeld ∧ t.status.busy = true ∧ t.status.done = s.status.done ∧ t.status.eq = s.status.eq ∧
    t.entropy = s.entropy ∧ t.params = s.params ∧ t.inputs = rest

/-- R23, R28: over every step but a reset, Y changes only in a completion of a command other than EQ, and
STATUS.EQ only in the completion of an EQ command. -/
def Obligations.OnlyCompletionsWriteYAndEq : Prop :=
  ∀ s t : State, step s = .next t → (∀ rest, s.inputs ≠ .reset :: rest) →
    (t.y ≠ s.y → s.status.busy = true ∧ s.lop ≠ 0x09 ∧ t.status.busy = false ∧ t.status.done = true) ∧
    (t.status.eq ≠ s.status.eq → s.status.busy = true ∧ s.lop = 0x09 ∧ t.status.busy = false ∧
      t.status.done = true)

/-- R21, R22: over every step but a reset, a limb of A or B changes only by a host write to that limb's own
address. -/
def Obligations.OnlyHostWritesChangeAAndB : Prop :=
  ∀ (s t : State) (k : Fin 10), step s = .next t → (∀ rest, s.inputs ≠ .reset :: rest) →
    (t.a[k] ≠ s.a[k] → ∃ v rest, s.inputs = wr s.params (0x00 + 4 * k.val) v :: rest ∧ t.a[k] = v) ∧
    (t.b[k] ≠ s.b[k] → ∃ v rest, s.inputs = wr s.params (0x28 + 4 * k.val) v :: rest ∧ t.b[k] = v)

/-- R180: an ENTROPY draw is taken by the completion of a SAMPLE command, exactly one, and by no other step: no step
changes the queue and the count of draws but the completion of SAMPLE, and a core turn with BUSY = 1 and LOP = 0x0A
takes one. The model's choices: a draw is the oldest of the queue or, where none is queued, a counted free value
(log 5), and an empty queue of events is a core turn (log 7). -/
def Obligations.OnlySampleDrawsEntropy : Prop :=
  ∀ s t : State, step s = .next t →
    ((t.entropy = s.entropy ∧ t.draws = s.draws) ∨
      (s.status.busy = true ∧ s.lop = 0x0A ∧ t.status.done = true ∧ TookOneDraw s t)) ∧
    (s.status.busy = true → s.lop = 0x0A → (s.inputs = [] ∨ ∃ rest, s.inputs = .core :: rest) → TookOneDraw s t)

/-- R26, R210, R202 at reset: the control state is legal after reset, for every choice of the parameters. -/
def Obligations.ResetIsLegal : Prop := ∀ p : Params, Legal (State.resetWith p)

/-- R26, R210, R202, R32: every step keeps the control state legal. -/
def Obligations.StepKeepsTheControlStateLegal : Prop :=
  ∀ s t : State, Legal s → step s = .next t → Legal t

/-- R202 ("LOP never holds any other value"): a legal state never stops on the latched opcode. -/
def Obligations.LatchedOpcodeIsAlwaysKnown : Prop :=
  ∀ (s : State) (lop : BitVec 5), Legal s → step s ≠ .fault (.latchedOpcode lop)

/-- R230, R208: with DATA_RESET = zero, "every limb holds a value" is kept by every step, reset included, and no
step is then the UNINIT fault; the parameters never change. -/
def Obligations.ZeroResetNeverMeetsUninit : Prop :=
  (∀ p : Params, p.dataReset = .zero → AllHeld (State.resetWith p)) ∧
  (∀ s t : State, s.params.dataReset = .zero → AllHeld s → step s = .next t →
    AllHeld t ∧ t.params = s.params) ∧
  (∀ (s : State) (r : DataReg), AllHeld s → step s ≠ .fault (.uninit r))

/-- R86: the ten writes of lda X leave X in A, whatever stood there, and of ldb X in B; nothing else of the block
changes, also while a command is in progress. -/
def Obligations.LdaAndLdbLoadTheOperands : Prop :=
  ∀ (s : State) (x : Limbs) (rest : List Event),
    (s.inputs = lda s.params x ++ rest →
      run 10 s = .next { s with
        a := x, aHeld := Vector.replicate 10 true, inputs := rest, response := .written }) ∧
    (s.inputs = ldb s.params x ++ rest →
      run 10 s = .next { s with
        b := x, bHeld := Vector.replicate 10 true, inputs := rest, response := .written })

/-- R86, R85: `wait` at position w polls STATUS into t9 and goes back to the poll exactly while BUSY = 1; the block
changes in nothing but its answer, and no other temporary of the host changes. -/
def Obligations.WaitPollsUntilIdle : Prop :=
  ∀ (program : List HostStmt) (w : Nat) (h : HostView) (s : State),
    program[w]? = some (.rd 0x7C (.t 9)) → program[w + 1]? = some (.bit1 (.t 9) 0 w) → h.position = w →
    ∃ h' h'' : HostView,
      hostStep program h s = .next h' { s with response := .value s.status.word } ∧
      hostStep program h' { s with response := .value s.status.word } =
        .next h'' { s with response := .value s.status.word } ∧
      h''.position = (if s.status.busy then w else w + 2) ∧ h''.temp (.t 9) = some s.status.word ∧
      ∀ k, k ≠ .t 9 → h''.temp k = h.temp k

/-- R86, R85 (as program P5 uses them): `rdy -> T ; lda T`, with no turn of the core between its statements, leaves Y
in A, whatever stood there, and in the temporary T; nothing else of the block and no other temporary changes. The
model's reading (log 16, DEDUCED from programs P2 and P5 of spec/95_test_vectors.md, not said by R85 and R86): X of
`lda X` may be a 10-limb temporary, and T is apart from t0, t1 and so on. -/
def Obligations.RdyThenLdaCopiesYToA : Prop :=
  ∀ (vector : Nat) (temps : List (HostTemp × Word)) (s : State), s.yHeld = true →
    ∃ h : HostView,
      hostRun (rdyStmts vector ++ ldaStmts (.temps vector)) (List.replicate 20 .host) ⟨0, temps⟩ s =
        .next h { s with a := s.y, aHeld := Vector.replicate 10 true, response := .written } ∧
      h.position = 20 ∧
      (∀ k : Fin 10, h.temp (.limb vector k.val) = some s.y[k]) ∧
      (∀ k, (∀ i, i < 10 → k ≠ .limb vector i) → h.temp k = HostView.temp ⟨0, temps⟩ k)
end

