-- ==== Sys2Proof/Laws/Decode.lean ====
section
/-! SUPPORT. The fields of a command word (spec/30_encoding.md R71): a word with zero reserved bits is made up of
its three other fields, and decoding hands on exactly those fields. -/

namespace Sys2Proof

/-- Every Instr is well formed: the constructors carry only sources their opcode may choose (R73). -/
theorem instr_wellFormed (i : Instr) : i.WellFormed = true := by
  cases i <;> first
    | rfl
    | (rename_i a; cases a <;> rfl)
    | (rename_i a b; cases a <;> cases b <;> rfl)

/-- What decodeFields accepts, it takes apart into the operation and its two bits. -/
theorem decodeFields_fields {op : BitVec 5} {ay by' : Bool} {i : Instr} (h : decodeFields op ay by' = .ok i) :
    op = i.op.code ∧ ay = i.ay ∧ by' = i.byBit := by
  have key : ∀ (op : BitVec 5) (ay by' : Bool), (match decodeFields op ay by' with
      | .ok i => decide (op = i.op.code ∧ ay = i.ay ∧ by' = i.byBit)
      | .error _ => true) = true := by decide
  have := key op ay by'
  rw [h] at this
  simpa using this

/-- A decoded word has zero reserved bits and the fields of its command. -/
theorem decode_fields {w : Word} {i : Instr} (h : decode w = .ok i) :
    rsv0Field w = 0 ∧ rsv1Field w = 0 ∧ opField w = i.op.code ∧ ayField w = i.ay ∧ byField w = i.byBit := by
  unfold decode at h
  split at h
  · cases h
  · rename_i hr
    simp only [not_or, not_not] at hr
    exact ⟨hr.1, hr.2, decodeFields_fields h⟩

theorem bitAt_getLsbD (n k : Nat) (v : Bool) (hk : k < 32) :
    (bitAt n v).getLsbD k = (v && decide (k = n)) := by
  cases v
  · simp [bitAt]
  · simp only [bitAt, if_true, Bool.true_and, BitVec.getLsbD_shiftLeft, hk, decide_true, Bool.true_and]
    by_cases e : k = n
    · simp [e]
    · simp only [e, decide_false]
      rcases Nat.lt_or_gt_of_ne e with h | h
      · simp [h]
      · simp [Nat.not_lt.mpr h.le]; omega

/-- A word with zero reserved bits is OP, AY and BY at their places (R71). -/
theorem word_of_fields (w : Word) (h0 : rsv0Field w = 0) (h1 : rsv1Field w = 0) :
    (opField w).setWidth 32 ||| bitAt 8 (ayField w) ||| bitAt 9 (byField w) = w := by
  have g0 : ∀ j, j < 3 → w.getLsbD (5 + j) = false := fun j hj => by
    have := congrArg (fun x => x.getLsbD j) h0
    simpa [rsv0Field, hj] using this
  have g1 : ∀ j, j < 22 → w.getLsbD (10 + j) = false := fun j hj => by
    have := congrArg (fun x => x.getLsbD j) h1
    simpa [rsv1Field, hj] using this
  apply BitVec.eq_of_getLsbD_eq
  intro k hk
  simp only [BitVec.getLsbD_or, bitAt_getLsbD _ _ _ hk, BitVec.getLsbD_setWidth, opField,
    BitVec.getLsbD_extractLsb', ayField, byField, hk, decide_true, Bool.true_and, Nat.zero_add]
  by_cases a1 : k < 5
  · simp [a1, show k ≠ 8 by omega, show k ≠ 9 by omega]
  · by_cases a2 : k < 8
    · have := g0 (k - 5) (by omega)
      rw [show 5 + (k - 5) = k by omega] at this
      simp [this, a1, show k ≠ 8 by omega, show k ≠ 9 by omega]
    · by_cases a3 : k < 10
      · interval_cases k <;> simp
      · have := g1 (k - 10) (by omega)
        rw [show 10 + (k - 10) = k by omega] at this
        simp [this, a1, show k ≠ 8 by omega, show k ≠ 9 by omega]

/-- LOP's case of R202 finds the operation of a latched opcode. -/
theorem opOfCode_code (op : Op) : opOfCode op.code = some op := by cases op <;> rfl

theorem code_of_opOfCode {c : BitVec 5} {op : Op} (h : opOfCode c = some op) : c = op.code := by
  have key : ∀ c : BitVec 5, (match opOfCode c with
      | some op => decide (c = op.code)
      | none => true) = true := by decide
  have := key c
  rw [h] at this
  simpa using this

theorem code_injective {o p : Op} (h : o.code = p.code) : o = p := by
  cases o <;> cases p <;> first | rfl | (exact absurd h (by decide))

theorem ofOp_op (op : Op) (a : SrcA) (b : SrcB) : (Instr.ofOp op a b).op = op := by cases op <;> rfl

end Sys2Proof
end

