-- ==== Sys2Proof/Laws/State.lean ====
section
/-! SUPPORT. The state after each shared update, one lemma per field (fields named as in State). -/

namespace Sys2Proof.Machine

variable (s : State)

section latch
variable (w : Word)
@[simp] theorem latch_a : (latch w s).a = s.a := rfl
@[simp] theorem latch_b : (latch w s).b = s.b := rfl
@[simp] theorem latch_y : (latch w s).y = s.y := rfl
@[simp] theorem latch_lastCmd : (latch w s).lastCmd = w := rfl
@[simp] theorem latch_status : (latch w s).status = s.status.accept := rfl
@[simp] theorem latch_lop : (latch w s).lop = opField w := rfl
@[simp] theorem latch_lay : (latch w s).lay = ayField w := rfl
@[simp] theorem latch_la : (latch w s).la = operandA (ayField w) s := rfl
@[simp] theorem latch_lb : (latch w s).lb = operandB (byField w) s := rfl
@[simp] theorem latch_aHeld : (latch w s).aHeld = s.aHeld := rfl
@[simp] theorem latch_bHeld : (latch w s).bHeld = s.bHeld := rfl
@[simp] theorem latch_yHeld : (latch w s).yHeld = s.yHeld := rfl
@[simp] theorem latch_params : (latch w s).params = s.params := rfl
@[simp] theorem latch_inputs : (latch w s).inputs = s.inputs := rfl
@[simp] theorem latch_response : (latch w s).response = s.response := rfl
@[simp] theorem latch_entropy : (latch w s).entropy = s.entropy := rfl
@[simp] theorem latch_draws : (latch w s).draws = s.draws := rfl
@[simp] theorem latch_freeDraws : (latch w s).freeDraws = s.freeDraws := rfl
end latch

section completeY
variable (r : Tracked)
@[simp] theorem completeY_a : (completeY r s).a = s.a := rfl
@[simp] theorem completeY_b : (completeY r s).b = s.b := rfl
@[simp] theorem completeY_y : (completeY r s).y = resultValue r s := rfl
@[simp] theorem completeY_lastCmd : (completeY r s).lastCmd = s.lastCmd := rfl
@[simp] theorem completeY_status : (completeY r s).status = s.status.complete := rfl
@[simp] theorem completeY_lop : (completeY r s).lop = s.lop := rfl
@[simp] theorem completeY_lay : (completeY r s).lay = s.lay := rfl
@[simp] theorem completeY_la : (completeY r s).la = s.la := rfl
@[simp] theorem completeY_lb : (completeY r s).lb = s.lb := rfl
@[simp] theorem completeY_aHeld : (completeY r s).aHeld = s.aHeld := rfl
@[simp] theorem completeY_bHeld : (completeY r s).bHeld = s.bHeld := rfl
@[simp] theorem completeY_yHeld : (completeY r s).yHeld = true := rfl
@[simp] theorem completeY_params : (completeY r s).params = s.params := rfl
@[simp] theorem completeY_inputs : (completeY r s).inputs = s.inputs := rfl
@[simp] theorem completeY_response : (completeY r s).response = s.response := rfl
@[simp] theorem completeY_entropy : (completeY r s).entropy = s.entropy := rfl
@[simp] theorem completeY_draws : (completeY r s).draws = s.draws := rfl
@[simp] theorem completeY_freeDraws : (completeY r s).freeDraws = freeDrawsAfter r s := rfl
end completeY

section completeEq
variable (v : Bool)
@[simp] theorem completeEq_a : (completeEq v s).a = s.a := rfl
@[simp] theorem completeEq_b : (completeEq v s).b = s.b := rfl
@[simp] theorem completeEq_y : (completeEq v s).y = s.y := rfl
@[simp] theorem completeEq_lastCmd : (completeEq v s).lastCmd = s.lastCmd := rfl
@[simp] theorem completeEq_status : (completeEq v s).status = (s.status.setEq v).complete := rfl
@[simp] theorem completeEq_lop : (completeEq v s).lop = s.lop := rfl
@[simp] theorem completeEq_lay : (completeEq v s).lay = s.lay := rfl
@[simp] theorem completeEq_la : (completeEq v s).la = s.la := rfl
@[simp] theorem completeEq_lb : (completeEq v s).lb = s.lb := rfl
@[simp] theorem completeEq_aHeld : (completeEq v s).aHeld = s.aHeld := rfl
@[simp] theorem completeEq_bHeld : (completeEq v s).bHeld = s.bHeld := rfl
@[simp] theorem completeEq_yHeld : (completeEq v s).yHeld = s.yHeld := rfl
@[simp] theorem completeEq_params : (completeEq v s).params = s.params := rfl
@[simp] theorem completeEq_inputs : (completeEq v s).inputs = s.inputs := rfl
@[simp] theorem completeEq_response : (completeEq v s).response = s.response := rfl
@[simp] theorem completeEq_entropy : (completeEq v s).entropy = s.entropy := rfl
@[simp] theorem completeEq_draws : (completeEq v s).draws = s.draws := rfl
@[simp] theorem completeEq_freeDraws : (completeEq v s).freeDraws = s.freeDraws := rfl
end completeEq

section raiseError
variable (c : BitVec 4)
@[simp] theorem raiseError_a : (raiseError c s).a = s.a := rfl
@[simp] theorem raiseError_b : (raiseError c s).b = s.b := rfl
@[simp] theorem raiseError_y : (raiseError c s).y = s.y := rfl
@[simp] theorem raiseError_lastCmd : (raiseError c s).lastCmd = s.lastCmd := rfl
@[simp] theorem raiseError_status : (raiseError c s).status = s.status.raise c := rfl
@[simp] theorem raiseError_lop : (raiseError c s).lop = s.lop := rfl
@[simp] theorem raiseError_lay : (raiseError c s).lay = s.lay := rfl
@[simp] theorem raiseError_la : (raiseError c s).la = s.la := rfl
@[simp] theorem raiseError_lb : (raiseError c s).lb = s.lb := rfl
@[simp] theorem raiseError_aHeld : (raiseError c s).aHeld = s.aHeld := rfl
@[simp] theorem raiseError_bHeld : (raiseError c s).bHeld = s.bHeld := rfl
@[simp] theorem raiseError_yHeld : (raiseError c s).yHeld = s.yHeld := rfl
@[simp] theorem raiseError_params : (raiseError c s).params = s.params := rfl
@[simp] theorem raiseError_inputs : (raiseError c s).inputs = s.inputs := rfl
@[simp] theorem raiseError_response : (raiseError c s).response = s.response := rfl
@[simp] theorem raiseError_entropy : (raiseError c s).entropy = s.entropy := rfl
@[simp] theorem raiseError_draws : (raiseError c s).draws = s.draws := rfl
@[simp] theorem raiseError_freeDraws : (raiseError c s).freeDraws = s.freeDraws := rfl
end raiseError

section writeStatus
variable (v : Word)
@[simp] theorem writeStatus_a : (writeStatus v s).a = s.a := rfl
@[simp] theorem writeStatus_b : (writeStatus v s).b = s.b := rfl
@[simp] theorem writeStatus_y : (writeStatus v s).y = s.y := rfl
@[simp] theorem writeStatus_lastCmd : (writeStatus v s).lastCmd = s.lastCmd := rfl
@[simp] theorem writeStatus_status : (writeStatus v s).status = s.status.hostWrite v := rfl
@[simp] theorem writeStatus_lop : (writeStatus v s).lop = s.lop := rfl
@[simp] theorem writeStatus_lay : (writeStatus v s).lay = s.lay := rfl
@[simp] theorem writeStatus_la : (writeStatus v s).la = s.la := rfl
@[simp] theorem writeStatus_lb : (writeStatus v s).lb = s.lb := rfl
@[simp] theorem writeStatus_aHeld : (writeStatus v s).aHeld = s.aHeld := rfl
@[simp] theorem writeStatus_bHeld : (writeStatus v s).bHeld = s.bHeld := rfl
@[simp] theorem writeStatus_yHeld : (writeStatus v s).yHeld = s.yHeld := rfl
@[simp] theorem writeStatus_params : (writeStatus v s).params = s.params := rfl
@[simp] theorem writeStatus_inputs : (writeStatus v s).inputs = s.inputs := rfl
@[simp] theorem writeStatus_response : (writeStatus v s).response = s.response := rfl
@[simp] theorem writeStatus_entropy : (writeStatus v s).entropy = s.entropy := rfl
@[simp] theorem writeStatus_draws : (writeStatus v s).draws = s.draws := rfl
@[simp] theorem writeStatus_freeDraws : (writeStatus v s).freeDraws = s.freeDraws := rfl
end writeStatus

section writeA
variable (i : Fin 10) (v : Word)
@[simp] theorem writeA_a : (writeA i v s).a = s.a.set i v := rfl
@[simp] theorem writeA_b : (writeA i v s).b = s.b := rfl
@[simp] theorem writeA_y : (writeA i v s).y = s.y := rfl
@[simp] theorem writeA_lastCmd : (writeA i v s).lastCmd = s.lastCmd := rfl
@[simp] theorem writeA_status : (writeA i v s).status = s.status := rfl
@[simp] theorem writeA_lop : (writeA i v s).lop = s.lop := rfl
@[simp] theorem writeA_lay : (writeA i v s).lay = s.lay := rfl
@[simp] theorem writeA_la : (writeA i v s).la = s.la := rfl
@[simp] theorem writeA_lb : (writeA i v s).lb = s.lb := rfl
@[simp] theorem writeA_aHeld : (writeA i v s).aHeld = s.aHeld.set i true := rfl
@[simp] theorem writeA_bHeld : (writeA i v s).bHeld = s.bHeld := rfl
@[simp] theorem writeA_yHeld : (writeA i v s).yHeld = s.yHeld := rfl
@[simp] theorem writeA_params : (writeA i v s).params = s.params := rfl
@[simp] theorem writeA_inputs : (writeA i v s).inputs = s.inputs := rfl
@[simp] theorem writeA_response : (writeA i v s).response = s.response := rfl
@[simp] theorem writeA_entropy : (writeA i v s).entropy = s.entropy := rfl
@[simp] theorem writeA_draws : (writeA i v s).draws = s.draws := rfl
@[simp] theorem writeA_freeDraws : (writeA i v s).freeDraws = s.freeDraws := rfl
end writeA

section writeB
variable (i : Fin 10) (v : Word)
@[simp] theorem writeB_a : (writeB i v s).a = s.a := rfl
@[simp] theorem writeB_b : (writeB i v s).b = s.b.set i v := rfl
@[simp] theorem writeB_y : (writeB i v s).y = s.y := rfl
@[simp] theorem writeB_lastCmd : (writeB i v s).lastCmd = s.lastCmd := rfl
@[simp] theorem writeB_status : (writeB i v s).status = s.status := rfl
@[simp] theorem writeB_lop : (writeB i v s).lop = s.lop := rfl
@[simp] theorem writeB_lay : (writeB i v s).lay = s.lay := rfl
@[simp] theorem writeB_la : (writeB i v s).la = s.la := rfl
@[simp] theorem writeB_lb : (writeB i v s).lb = s.lb := rfl
@[simp] theorem writeB_aHeld : (writeB i v s).aHeld = s.aHeld := rfl
@[simp] theorem writeB_bHeld : (writeB i v s).bHeld = s.bHeld.set i true := rfl
@[simp] theorem writeB_yHeld : (writeB i v s).yHeld = s.yHeld := rfl
@[simp] theorem writeB_params : (writeB i v s).params = s.params := rfl
@[simp] theorem writeB_inputs : (writeB i v s).inputs = s.inputs := rfl
@[simp] theorem writeB_response : (writeB i v s).response = s.response := rfl
@[simp] theorem writeB_entropy : (writeB i v s).entropy = s.entropy := rfl
@[simp] theorem writeB_draws : (writeB i v s).draws = s.draws := rfl
@[simp] theorem writeB_freeDraws : (writeB i v s).freeDraws = s.freeDraws := rfl
end writeB

section respond
variable (r : BusResponse)
@[simp] theorem respond_a : (respond r s).a = s.a := rfl
@[simp] theorem respond_b : (respond r s).b = s.b := rfl
@[simp] theorem respond_y : (respond r s).y = s.y := rfl
@[simp] theorem respond_lastCmd : (respond r s).lastCmd = s.lastCmd := rfl
@[simp] theorem respond_status : (respond r s).status = s.status := rfl
@[simp] theorem respond_lop : (respond r s).lop = s.lop := rfl
@[simp] theorem respond_lay : (respond r s).lay = s.lay := rfl
@[simp] theorem respond_la : (respond r s).la = s.la := rfl
@[simp] theorem respond_lb : (respond r s).lb = s.lb := rfl
@[simp] theorem respond_aHeld : (respond r s).aHeld = s.aHeld := rfl
@[simp] theorem respond_bHeld : (respond r s).bHeld = s.bHeld := rfl
@[simp] theorem respond_yHeld : (respond r s).yHeld = s.yHeld := rfl
@[simp] theorem respond_params : (respond r s).params = s.params := rfl
@[simp] theorem respond_inputs : (respond r s).inputs = s.inputs := rfl
@[simp] theorem respond_response : (respond r s).response = r := rfl
@[simp] theorem respond_entropy : (respond r s).entropy = s.entropy := rfl
@[simp] theorem respond_draws : (respond r s).draws = s.draws := rfl
@[simp] theorem respond_freeDraws : (respond r s).freeDraws = s.freeDraws := rfl
end respond

section withInputs
variable (l : List Event)
@[simp] theorem withInputs_a : (withInputs l s).a = s.a := rfl
@[simp] theorem withInputs_b : (withInputs l s).b = s.b := rfl
@[simp] theorem withInputs_y : (withInputs l s).y = s.y := rfl
@[simp] theorem withInputs_lastCmd : (withInputs l s).lastCmd = s.lastCmd := rfl
@[simp] theorem withInputs_status : (withInputs l s).status = s.status := rfl
@[simp] theorem withInputs_lop : (withInputs l s).lop = s.lop := rfl
@[simp] theorem withInputs_lay : (withInputs l s).lay = s.lay := rfl
@[simp] theorem withInputs_la : (withInputs l s).la = s.la := rfl
@[simp] theorem withInputs_lb : (withInputs l s).lb = s.lb := rfl
@[simp] theorem withInputs_aHeld : (withInputs l s).aHeld = s.aHeld := rfl
@[simp] theorem withInputs_bHeld : (withInputs l s).bHeld = s.bHeld := rfl
@[simp] theorem withInputs_yHeld : (withInputs l s).yHeld = s.yHeld := rfl
@[simp] theorem withInputs_params : (withInputs l s).params = s.params := rfl
@[simp] theorem withInputs_inputs : (withInputs l s).inputs = l := rfl
@[simp] theorem withInputs_response : (withInputs l s).response = s.response := rfl
@[simp] theorem withInputs_entropy : (withInputs l s).entropy = s.entropy := rfl
@[simp] theorem withInputs_draws : (withInputs l s).draws = s.draws := rfl
@[simp] theorem withInputs_freeDraws : (withInputs l s).freeDraws = s.freeDraws := rfl
end withInputs

section submissionNext
variable (w : Word)
@[simp] theorem submissionNext_a : (submissionNext w s).a = s.a := rfl
@[simp] theorem submissionNext_b : (submissionNext w s).b = s.b := rfl
@[simp] theorem submissionNext_y : (submissionNext w s).y = s.y := rfl
@[simp] theorem submissionNext_lastCmd : (submissionNext w s).lastCmd = s.lastCmd := rfl
@[simp] theorem submissionNext_status : (submissionNext w s).status = { s.status with busy := false } := rfl
@[simp] theorem submissionNext_lop : (submissionNext w s).lop = s.lop := rfl
@[simp] theorem submissionNext_lay : (submissionNext w s).lay = s.lay := rfl
@[simp] theorem submissionNext_la : (submissionNext w s).la = s.la := rfl
@[simp] theorem submissionNext_lb : (submissionNext w s).lb = s.lb := rfl
@[simp] theorem submissionNext_aHeld : (submissionNext w s).aHeld = s.aHeld := rfl
@[simp] theorem submissionNext_bHeld : (submissionNext w s).bHeld = s.bHeld := rfl
@[simp] theorem submissionNext_yHeld : (submissionNext w s).yHeld = s.yHeld := rfl
@[simp] theorem submissionNext_params : (submissionNext w s).params = s.params := rfl
@[simp] theorem submissionNext_inputs : (submissionNext w s).inputs = .bus (.write (s.params.mmBase + 0x78) 32 w) :: s.inputs := rfl
@[simp] theorem submissionNext_response : (submissionNext w s).response = s.response := rfl
@[simp] theorem submissionNext_entropy : (submissionNext w s).entropy = s.entropy := rfl
@[simp] theorem submissionNext_draws : (submissionNext w s).draws = s.draws := rfl
@[simp] theorem submissionNext_freeDraws : (submissionNext w s).freeDraws = s.freeDraws := rfl
end submissionNext

@[simp] theorem resetBlock_a : (resetBlock s).a = (State.resetWith s.params).a := rfl
@[simp] theorem resetBlock_b : (resetBlock s).b = (State.resetWith s.params).b := rfl
@[simp] theorem resetBlock_y : (resetBlock s).y = (State.resetWith s.params).y := rfl
@[simp] theorem resetBlock_lastCmd : (resetBlock s).lastCmd = (State.resetWith s.params).lastCmd := rfl
@[simp] theorem resetBlock_status : (resetBlock s).status = (State.resetWith s.params).status := rfl
@[simp] theorem resetBlock_lop : (resetBlock s).lop = (State.resetWith s.params).lop := rfl
@[simp] theorem resetBlock_lay : (resetBlock s).lay = (State.resetWith s.params).lay := rfl
@[simp] theorem resetBlock_la : (resetBlock s).la = (State.resetWith s.params).la := rfl
@[simp] theorem resetBlock_lb : (resetBlock s).lb = (State.resetWith s.params).lb := rfl
@[simp] theorem resetBlock_aHeld : (resetBlock s).aHeld = (State.resetWith s.params).aHeld := rfl
@[simp] theorem resetBlock_bHeld : (resetBlock s).bHeld = (State.resetWith s.params).bHeld := rfl
@[simp] theorem resetBlock_yHeld : (resetBlock s).yHeld = (State.resetWith s.params).yHeld := rfl
@[simp] theorem resetBlock_params : (resetBlock s).params = s.params := rfl
@[simp] theorem resetBlock_inputs : (resetBlock s).inputs = s.inputs := rfl
@[simp] theorem resetBlock_response : (resetBlock s).response = s.response := rfl
@[simp] theorem resetBlock_entropy : (resetBlock s).entropy = s.entropy := rfl
@[simp] theorem resetBlock_draws : (resetBlock s).draws = s.draws := rfl
@[simp] theorem resetBlock_freeDraws : (resetBlock s).freeDraws = s.freeDraws := rfl

@[simp] theorem takeDraw_a : (takeDraw s).a = s.a := by unfold takeDraw; split <;> rfl
@[simp] theorem takeDraw_b : (takeDraw s).b = s.b := by unfold takeDraw; split <;> rfl
@[simp] theorem takeDraw_y : (takeDraw s).y = s.y := by unfold takeDraw; split <;> rfl
@[simp] theorem takeDraw_lastCmd : (takeDraw s).lastCmd = s.lastCmd := by unfold takeDraw; split <;> rfl
@[simp] theorem takeDraw_status : (takeDraw s).status = s.status := by unfold takeDraw; split <;> rfl
@[simp] theorem takeDraw_lop : (takeDraw s).lop = s.lop := by unfold takeDraw; split <;> rfl
@[simp] theorem takeDraw_lay : (takeDraw s).lay = s.lay := by unfold takeDraw; split <;> rfl
@[simp] theorem takeDraw_la : (takeDraw s).la = s.la := by unfold takeDraw; split <;> rfl
@[simp] theorem takeDraw_lb : (takeDraw s).lb = s.lb := by unfold takeDraw; split <;> rfl
@[simp] theorem takeDraw_aHeld : (takeDraw s).aHeld = s.aHeld := by unfold takeDraw; split <;> rfl
@[simp] theorem takeDraw_bHeld : (takeDraw s).bHeld = s.bHeld := by unfold takeDraw; split <;> rfl
@[simp] theorem takeDraw_yHeld : (takeDraw s).yHeld = s.yHeld := by unfold takeDraw; split <;> rfl
@[simp] theorem takeDraw_params : (takeDraw s).params = s.params := by unfold takeDraw; split <;> rfl
@[simp] theorem takeDraw_inputs : (takeDraw s).inputs = s.inputs := by unfold takeDraw; split <;> rfl
@[simp] theorem takeDraw_response : (takeDraw s).response = s.response := by unfold takeDraw; split <;> rfl
@[simp] theorem takeDraw_freeDraws : (takeDraw s).freeDraws = s.freeDraws := by unfold takeDraw; split <;> rfl

@[simp] theorem Status.accept_busy (st : Status) : (st.accept).busy = true := rfl
@[simp] theorem Status.accept_done (st : Status) : (st.accept).done = false := rfl
@[simp] theorem Status.accept_eq (st : Status) : (st.accept).eq = st.eq := rfl
@[simp] theorem Status.accept_err (st : Status) : (st.accept).err = st.err := rfl
@[simp] theorem Status.accept_errCode (st : Status) : (st.accept).errCode = st.errCode := rfl
@[simp] theorem Status.complete_busy (st : Status) : (st.complete).busy = false := rfl
@[simp] theorem Status.complete_done (st : Status) : (st.complete).done = true := rfl
@[simp] theorem Status.complete_eq (st : Status) : (st.complete).eq = st.eq := rfl
@[simp] theorem Status.complete_err (st : Status) : (st.complete).err = st.err := rfl
@[simp] theorem Status.complete_errCode (st : Status) : (st.complete).errCode = st.errCode := rfl
@[simp] theorem Status.setEq_busy (v : Bool) (st : Status) : (Status.setEq v st).busy = st.busy := rfl
@[simp] theorem Status.setEq_done (v : Bool) (st : Status) : (Status.setEq v st).done = st.done := rfl
@[simp] theorem Status.setEq_eq (v : Bool) (st : Status) : (Status.setEq v st).eq = v := rfl
@[simp] theorem Status.setEq_err (v : Bool) (st : Status) : (Status.setEq v st).err = st.err := rfl
@[simp] theorem Status.setEq_errCode (v : Bool) (st : Status) : (Status.setEq v st).errCode = st.errCode := rfl
@[simp] theorem Status.raise_busy (c : BitVec 4) (st : Status) : (Status.raise c st).busy = st.busy := by unfold Status.raise; split <;> rfl
@[simp] theorem Status.raise_done (c : BitVec 4) (st : Status) : (Status.raise c st).done = st.done := by unfold Status.raise; split <;> rfl
@[simp] theorem Status.raise_eq (c : BitVec 4) (st : Status) : (Status.raise c st).eq = st.eq := by unfold Status.raise; split <;> rfl
@[simp] theorem Status.hostWrite_busy (v : Word) (st : Status) : (Status.hostWrite v st).busy = st.busy := by unfold Status.hostWrite; split <;> rfl
@[simp] theorem Status.hostWrite_done (v : Word) (st : Status) : (Status.hostWrite v st).done = st.done := by unfold Status.hostWrite; split <;> rfl
@[simp] theorem Status.hostWrite_eq (v : Word) (st : Status) : (Status.hostWrite v st).eq = st.eq := by unfold Status.hostWrite; split <;> rfl

end Sys2Proof.Machine
end

