-- ==== Sys2Proof/Laws/Bus.lean ====
section
/-! SUPPORT. What a meaning, a bus access and a step can do, each said once: exec in its two phases, the window,
and the cases of a step that answers a next state. -/

namespace Sys2Proof.Machine

/-! ### exec -/

/-- While BUSY = 0 a command's step is its acceptance (R200). -/
theorem exec_idle (i : Instr) (s : State) (h : s.status.busy = false) : exec i s = accept i s := by
  cases i <;> simp only [exec, execMontMul, execToMont, execFromMont, execAdd, execSub, execMul, execPow, execInv,
    execEq, execSample, execLdzero, execLdone, commandStep, h, Bool.false_eq_true, if_false]

/-- The state a completion that writes Y starts from: SAMPLE has taken its draw (R182). -/
def beforeResult (op : Op) (s : State) : State := if op = .sample then takeDraw s else s

/-- Before its result is written a command has changed nothing but the entropy and the count of draws. -/
theorem beforeResult_eq (op : Op) (s : State) : beforeResult op s =
    { s with entropy := (beforeResult op s).entropy, draws := (beforeResult op s).draws } := by
  unfold beforeResult takeDraw; split <;> (try split) <;> rfl

/-- While BUSY = 1 a command other than EQ completes with its result in Y (R202). -/
theorem exec_busy (i : Instr) (s : State) (r : Tracked) (h : s.status.busy = true)
    (hr : resultOf i.op s.la s.lb (entropyDraw s) = some r) :
    exec i s = .next (completeY r (beforeResult i.op s)) := by
  cases i <;> cases hr <;> simp only [exec, execMontMul, execToMont, execFromMont, execAdd, execSub, execMul,
    execPow, execInv, execSample, execLdzero, execLdone, commandStep, h, if_true] <;> rfl

/-- While BUSY = 1 EQ completes with its flag (R186, R202). -/
theorem exec_busy_eq (sa : SrcA) (sb : SrcB) (s : State) (h : s.status.busy = true) :
    exec (.eq sa sb) s = .next (completeEq (feq s.la s.lb) s) := by
  simp only [exec, execEq, commandStep, h, if_true]

/-- resultOf names a result for every command but EQ. -/
theorem resultOf_cases (op : Op) (a b : Limbs) (d : Draw) : op = .eq ∨ ∃ r, resultOf op a b d = some r := by
  cases op <;> first | exact .inl rfl | exact .inr ⟨_, rfl⟩

/-- What every completion is: the result in Y, or the flag of EQ. -/
theorem exec_busy_cases (i : Instr) (s : State) (h : s.status.busy = true) :
    (i.op = .eq ∧ exec i s = .next (completeEq (feq s.la s.lb) s)) ∨
    (i.op ≠ .eq ∧ ∃ r, resultOf i.op s.la s.lb (entropyDraw s) = some r ∧
      exec i s = .next (completeY r (beforeResult i.op s))) := by
  by_cases he : i.op = .eq
  · left
    refine ⟨he, ?_⟩
    cases i with
    | eq sa sb => exact exec_busy_eq sa sb s h
    | _ => cases he
  · right
    obtain ⟨r, hr⟩ := (resultOf_cases i.op s.la s.lb (entropyDraw s)).resolve_left he
    exact ⟨he, r, hr, exec_busy i s r h hr⟩

/-- Where no free result is drawn, a completion writes the value and nothing but Y, BUSY and DONE changes (R122,
R202). -/
theorem completeY_plain {r : Tracked} {s : State} (h : s.params.topLimb = .wrap ∨ r.overflow = false) :
    completeY r s = completedWith r.value s := by
  have hf : drawsFree r s = false := by rcases h with h | h <;> simp [drawsFree, h]
  simp only [completeY, completedWith, resultValue, freeDrawsAfter, hf]; rfl

/-- Where a free result is drawn, some value is written (R122). -/
theorem completeY_free {r : Tracked} {s : State} (h : s.params.topLimb = .any) (ho : r.overflow = true) :
    completeY r s = { completedWith (Config.freeResult s.freeDraws) s with freeDraws := s.freeDraws + 1 } := by
  have hf : drawsFree r s = true := by simp [drawsFree, h, ho]
  simp only [completeY, completedWith, resultValue, freeDrawsAfter, hf]; rfl

/-- A command that draws neither entropy nor a free result completes with its value (R202). -/
theorem exec_busy_plain (i : Instr) (s : State) (r : Tracked) (h : s.status.busy = true)
    (hr : resultOf i.op s.la s.lb (entropyDraw s) = some r) (hs : i.op ≠ .sample)
    (hw : s.params.topLimb = .wrap ∨ r.overflow = false) : exec i s = .next (completedWith r.value s) := by
  rw [exec_busy i s r h hr, beforeResult, if_neg hs, completeY_plain hw]

theorem takeDraw_cons {e : Draw} {es : List Draw} {s : State} (h : s.entropy = e :: es) :
    takeDraw s = { s with entropy := es } := by
  cases s; subst h; rfl

theorem takeDraw_nil {s : State} (h : s.entropy = []) : takeDraw s = { s with draws := s.draws + 1 } := by
  cases s; subst h; rfl

theorem entropyDraw_cons {e : Draw} {es : List Draw} {s : State} (h : s.entropy = e :: es) : entropyDraw s = e := by
  rw [entropyDraw, h]

theorem entropyDraw_nil {s : State} (h : s.entropy = []) : entropyDraw s = Config.freeEntropy s.draws := by
  rw [entropyDraw, h]

/-- SAMPLE completes with sample of its draw, which is taken (R182). -/
theorem exec_busy_sample (s : State) (h : s.status.busy = true) :
    exec .sample s = .next (completedWith (sample (entropyDraw s)) (takeDraw s)) := by
  rw [exec_busy .sample s _ h rfl]
  change Host.Outcome.next (completeY _ (takeDraw s)) = _
  rw [completeY_plain (.inr rfl)]; rfl

/-- Every command in progress completes: exec answers a next state with BUSY = 0 and DONE = 1 (R202). -/
theorem exec_busy_next (i : Instr) (s : State) (h : s.status.busy = true) :
    ∃ t, exec i s = .next t ∧ t.status.busy = false ∧ t.status.done = true := by
  rcases exec_busy_cases i s h with ⟨-, h⟩ | ⟨-, r, -, h⟩
  · exact ⟨_, h, rfl, rfl⟩
  · exact ⟨_, h, rfl, rfl⟩

theorem allHeld_iff (h : Vector Bool 10) : allHeld h = true ↔ ∀ k : Fin 10, h[k] = true := by
  simp only [allHeld, List.all_eq_true, id_eq]
  constructor
  · intro hh k
    exact hh _ (by simp)
  · intro hh x hx
    obtain ⟨k, hk, rfl⟩ := List.getElem_of_mem hx
    simpa using hh ⟨k, by simpa using hk⟩

theorem missingOperand_none_iff (i : Instr) (s : State) : missingOperand i s = none ↔ OperandsHeld i s := by
  have ha : heldA i.ay s = true ↔ if i.ay then s.yHeld = true else ∀ k : Fin 10, s.aHeld[k] = true := by
    unfold heldA; split <;> simp [allHeld_iff]
  have hb : heldB i.byBit s = true ↔ if i.byBit then s.yHeld = true else ∀ k : Fin 10, s.bHeld[k] = true := by
    unfold heldB; split <;> simp [allHeld_iff]
  rw [OperandsHeld, ← ha, ← hb, missingOperand]
  cases i.op.readsA <;> cases i.op.readsB <;> cases heldA i.ay s <;> cases heldB i.byBit s <;> simp

/-- A command whose operands hold values is accepted: it is latched (R200). -/
theorem accept_held (i : Instr) (s : State) (h : OperandsHeld i s) : accept i s = .next (latch (encode i) s) := by
  rw [accept, (missingOperand_none_iff i s).mpr h]

/-- A command that reads a limb holding no value is the UNINIT fault (R208). -/
theorem accept_not_held (i : Instr) (s : State) (h : ¬ OperandsHeld i s) :
    ∃ r, accept i s = .fault (.uninit r) := by
  rw [← missingOperand_none_iff] at h
  obtain ⟨r, hr⟩ := Option.ne_none_iff_exists'.mp h
  exact ⟨r, by rw [accept, hr]⟩

/-! ### The window -/

theorem inWindow_offset (p : Params) (o : Nat) (h : o < 0x80) : inWindow p (p.mmBase + o) = true := by
  simp [inWindow]; omega

theorem accessAllowed_offset (p : Params) (o : Nat) (h : o % 4 = 0) :
    accessAllowed (p.mmBase + o) 32 = true := by
  simp [accessAllowed, Params.mmBase]; omega

theorem windowReg_a (k : Fin 10) : windowReg (0x00 + 4 * k.val) = .a k := by revert k; decide
theorem windowReg_b (k : Fin 10) : windowReg (0x28 + 4 * k.val) = .b k := by revert k; decide
theorem windowReg_y (k : Fin 10) : windowReg (0x50 + 4 * k.val) = .y k := by revert k; decide
theorem windowReg_cmd : windowReg 0x78 = .cmd := by decide
theorem windowReg_status : windowReg 0x7C = .status := by decide

/-- A read in the window at an aligned offset reaches the register there (R51, R52). -/
theorem step_rd (s : State) (rest : List Event) (o : Nat) (h : s.inputs = rd s.params o :: rest) (h1 : o < 0x80)
    (h2 : o % 4 = 0) : step s = readAccess (windowReg o) (withInputs rest s) := by
  simp only [step, h, rd, runEvent, busAccess, BusAccess.addr, BusAccess.width, withInputs_params,
    inWindow_offset _ _ h1, accessAllowed_offset _ _ h2, Bool.not_true, Bool.false_eq_true, if_false,
    Nat.add_sub_cancel_left]

/-- A write in the window at an aligned offset reaches the register there (R51, R52). -/
theorem step_wr (s : State) (rest : List Event) (o : Nat) (v : Word) (h : s.inputs = wr s.params o v :: rest)
    (h1 : o < 0x80) (h2 : o % 4 = 0) :
    step s = writeAccess (windowReg o) (s.params.mmBase + o) v (withInputs rest s) := by
  simp only [step, h, wr, runEvent, busAccess, BusAccess.addr, BusAccess.width, withInputs_params,
    inWindow_offset _ _ h1, accessAllowed_offset _ _ h2, Bool.not_true, Bool.false_eq_true, if_false,
    Nat.add_sub_cancel_left]

theorem step_core (s : State) (rest : List Event) (h : s.inputs = .core :: rest) :
    step s = coreTurn (withInputs rest s) := by
  simp only [step, h, runEvent]

theorem step_empty (s : State) (h : s.inputs = []) : step s = coreTurn s := by
  simp only [step, h]

theorem step_reset (s : State) (rest : List Event) (h : s.inputs = .reset :: rest) :
    step s = .next (resetBlock (withInputs rest s)) := by
  simp only [step, h, runEvent]

/-- A write to CMD is a submission (R200). -/
theorem step_submit (s : State) (rest : List Event) (w : Word) (h : s.inputs = wr s.params 0x78 w :: rest) :
    step s = submit w (respond .written (withInputs rest s)) := by
  rw [step_wr s rest 0x78 w h (by omega) (by omega), windowReg_cmd]; rfl

/-! ### The cases of a submission, a core turn, an access and a step -/

/-- A submission that answers a next state: dropped while busy, illegal, or accepted (R200, R204, R206). -/
theorem submit_cases {w : Word} {s t : State} (h : submit w s = .next t) :
    (s.status.busy = true ∧ t = raiseError codeCmdWhileBusy s) ∨
    (s.status.busy = false ∧ (∃ e, decode w = .error e) ∧ t = raiseError codeIllegalCmd s) ∨
    (s.status.busy = false ∧ ∃ i, decode w = .ok i ∧ OperandsHeld i s ∧ t = latch (encode i) s) := by
  unfold submit at h
  split at h
  · rename_i hb
    cases h; exact .inl ⟨hb, rfl⟩
  · rename_i hb
    have hb : s.status.busy = false := by simpa using hb
    split at h
    · rename_i e he
      cases h; exact .inr (.inl ⟨hb, ⟨e, he⟩, rfl⟩)
    · rename_i i hi
      rw [exec_idle i s hb] at h
      by_cases ho : OperandsHeld i s
      · rw [accept_held i s ho] at h
        cases h; exact .inr (.inr ⟨hb, i, hi, ho, rfl⟩)
      · obtain ⟨r, hr⟩ := accept_not_held i s ho
        rw [hr] at h; cases h

/-- With BUSY = 1 and LOP an opcode, the core's turn is that operation's step (R201, R202). -/
theorem coreTurn_op (s : State) (op : Op) (h : s.status.busy = true) (hl : s.lop = op.code) :
    coreTurn s = exec (Instr.ofOp op (SrcA.ofBit s.lay) (SrcB.ofBit (byField s.lastCmd))) s := by
  simp only [coreTurn, h, if_true, latchedInstr, hl, opOfCode_code]

/-- A legal state's latched opcode is an opcode (R202). -/
theorem legal_lop {s : State} (h : Legal s) (hb : s.status.busy = true) : ∃ op : Op, s.lop = op.code := by
  obtain ⟨⟨i, hi⟩, hl, -⟩ := h.latchedFromLastCmd hb
  exact ⟨i.op, hl.trans (decode_fields hi).2.2.1⟩

/-- A core turn that answers a next state: idle, the completion of EQ, or the completion of another command. -/
theorem coreTurn_cases {s t : State} (h : coreTurn s = .next t) :
    (s.status.busy = false ∧ t = s) ∨
    (s.status.busy = true ∧ s.lop = Op.eq.code ∧ t = completeEq (feq s.la s.lb) s) ∨
    (s.status.busy = true ∧ ∃ op r, op ≠ .eq ∧ s.lop = op.code ∧
      resultOf op s.la s.lb (entropyDraw s) = some r ∧ t = completeY r (beforeResult op s)) := by
  unfold coreTurn at h
  split at h
  · rename_i hb
    unfold latchedInstr at h
    cases ho : opOfCode s.lop with
    | none => rw [ho] at h; cases h
    | some op =>
      rw [ho] at h
      have hc := code_of_opOfCode ho
      have hop := ofOp_op op (SrcA.ofBit s.lay) (SrcB.ofBit (byField s.lastCmd))
      rcases exec_busy_cases (Instr.ofOp op (SrcA.ofBit s.lay) (SrcB.ofBit (byField s.lastCmd))) s hb with
        ⟨he, hx⟩ | ⟨he, r, hr, hx⟩
      · rw [hop] at he
        change exec _ s = _ at h
        rw [hx] at h
        cases h
        exact .inr (.inl ⟨hb, by rw [hc, he], rfl⟩)
      · change exec _ s = _ at h
        rw [hx] at h
        rw [hop] at he hr
        cases h
        exact .inr (.inr ⟨hb, op, r, he, hc, hr, by rw [hop]⟩)
  · rename_i hb
    cases h
    exact .inl ⟨by simpa using hb, rfl⟩

/-- An aligned 32-bit address of the window is a base offset. -/
theorem offset_of_window {p : Params} {addr : Nat} (h1 : inWindow p addr = true) (h2 : addr % 4 = 0) :
    ∃ o, addr = p.mmBase + o ∧ o < 0x80 ∧ o % 4 = 0 := by
  simp only [inWindow, Bool.and_eq_true, decide_eq_true_eq] at h1
  refine ⟨addr - p.mmBase, by omega, by omega, ?_⟩
  simp only [Params.mmBase] at *
  omega

/-- The registers of the window by their offsets (R51). -/
theorem windowReg_cases {o : Nat} (h1 : o < 0x80) (h2 : o % 4 = 0) :
    (∃ k : Fin 10, o = 0x00 + 4 * k.val ∧ windowReg o = .a k) ∨
    (∃ k : Fin 10, o = 0x28 + 4 * k.val ∧ windowReg o = .b k) ∨
    (∃ k : Fin 10, o = 0x50 + 4 * k.val ∧ windowReg o = .y k) ∨
    (o = 0x78 ∧ windowReg o = .cmd) ∨ (o = 0x7C ∧ windowReg o = .status) := by
  by_cases a : o < 0x28
  · have e : o = 0x00 + 4 * (⟨o / 4, by omega⟩ : Fin 10).val := by simp; omega
    exact .inl ⟨_, e, (congrArg windowReg e).trans (windowReg_a _)⟩
  · by_cases b : o < 0x50
    · have e : o = 0x28 + 4 * (⟨(o - 0x28) / 4, by omega⟩ : Fin 10).val := by simp; omega
      exact .inr (.inl ⟨_, e, (congrArg windowReg e).trans (windowReg_b _)⟩)
    · by_cases c : o < 0x78
      · have e : o = 0x50 + 4 * (⟨(o - 0x50) / 4, by omega⟩ : Fin 10).val := by simp; omega
        exact .inr (.inr (.inl ⟨_, e, (congrArg windowReg e).trans (windowReg_y _)⟩))
      · by_cases d : o = 0x78
        · exact .inr (.inr (.inr (.inl ⟨d, by rw [d]; exact windowReg_cmd⟩)))
        · have e : o = 0x7C := by omega
          exact .inr (.inr (.inr (.inr ⟨e, by rw [e]; exact windowReg_status⟩)))

/-- A bus access that answers a next state: a read, a write of a limb of A or B, a submission, or a write to
STATUS (R51). -/
theorem busAccess_cases {x : BusAccess} {s t : State} (h : busAccess x s = .next t) :
    (∃ addr v, x = .read addr 32 ∧ t = respond (.value v) s) ∨
    (∃ (k : Fin 10) (v : Word), x = .write (s.params.mmBase + (0x00 + 4 * k.val)) 32 v ∧
      t = respond .written (writeA k v s)) ∨
    (∃ (k : Fin 10) (v : Word), x = .write (s.params.mmBase + (0x28 + 4 * k.val)) 32 v ∧
      t = respond .written (writeB k v s)) ∨
    (∃ w, x = .write (s.params.mmBase + 0x78) 32 w ∧ submit w (respond .written s) = .next t) ∨
    (∃ v, x = .write (s.params.mmBase + 0x7C) 32 v ∧ t = respond .written (writeStatus v s)) := by
  unfold busAccess at h
  split at h
  · cases h
  · rename_i hw
    split at h
    · cases h
    · rename_i ha
      have hw : inWindow s.params x.addr = true := by simpa using hw
      have ha : x.width = 32 ∧ x.addr % 4 = 0 := by simpa [accessAllowed] using ha
      obtain ⟨o, ho, o1, o2⟩ := offset_of_window hw ha.2
      cases x with
      | read addr width =>
        simp only [BusAccess.width] at ha
        simp only [readAccess] at h
        split at h
        · rename_i v _
          cases h
          exact .inl ⟨addr, v, by rw [ha.1], rfl⟩
        · cases h
      | write addr width v =>
        simp only [BusAccess.width, BusAccess.addr] at ha ho
        obtain ⟨rfl, -⟩ := ha
        subst ho
        simp only [Nat.add_sub_cancel_left] at h
        rcases windowReg_cases o1 o2 with ⟨k, rfl, e⟩ | ⟨k, rfl, e⟩ | ⟨k, rfl, e⟩ | ⟨rfl, e⟩ | ⟨rfl, e⟩ <;>
          rw [e] at h <;> simp only [writeAccess] at h
        · cases h; exact .inr (.inl ⟨k, v, rfl, rfl⟩)
        · cases h; exact .inr (.inr (.inl ⟨k, v, rfl, rfl⟩))
        · cases h
        · exact .inr (.inr (.inr (.inl ⟨v, rfl, h⟩)))
        · cases h; exact .inr (.inr (.inr (.inr ⟨v, rfl, rfl⟩)))

/-! ### Where the UNINIT fault comes from -/

/-- A limb is the UNINIT fault exactly where it holds no value (R35). -/
theorem readLimb_error_iff {reg : DataReg} {held : Bool} {w : Word} {f : Fault} :
    readLimb reg held w = .error f ↔ held = false ∧ f = .uninit reg := by
  cases held <;> simp [readLimb, eq_comm]

/-- A read stops exactly where its register does. -/
theorem readAccess_fault_iff {r : WindowReg} {s : State} {f : Fault} :
    readAccess r s = .fault f ↔ readReg r s = .error f := by
  unfold readAccess
  cases readReg r s <;> simp

/-- A submission is the UNINIT fault exactly where it is accepted (BUSY = 0, a command) and its command reads a limb
that holds no value (R208). -/
theorem submit_uninit_iff {w : Word} {s : State} : (∃ r, submit w s = .fault (.uninit r)) ↔
    s.status.busy = false ∧ ∃ i, decode w = .ok i ∧ ¬ OperandsHeld i s := by
  unfold submit
  cases hb : s.status.busy
  · cases hd : decode w with
    | error e => simp
    | ok i =>
      simp only [Bool.false_eq_true, if_false, exec_idle i s hb, true_and]
      refine ⟨fun ⟨r, h⟩ => ⟨i, rfl, fun ho => ?_⟩, fun ⟨j, hj, h⟩ => ?_⟩
      · rw [accept_held i s ho] at h; cases h
      · cases hj; exact accept_not_held i s h
  · simp

/-- A core turn is never the UNINIT fault: completion uses the latches alone (R202). -/
theorem coreTurn_ne_uninit (s : State) (r : DataReg) : coreTurn s ≠ .fault (.uninit r) := by
  unfold coreTurn
  split
  · rename_i hb
    split
    · rename_i i _
      obtain ⟨t, ht, -⟩ := exec_busy_next i s hb
      rw [ht]; nofun
    · nofun
  · nofun

/-! ### The cases of a read and of a step -/

/-- When a read answers a next state: an aligned 32-bit address of the window whose register holds a value, which
is the answer (R51, R52, R53). -/
theorem busAccess_read_iff {addr width : Nat} {s t : State} : busAccess (.read addr width) s = .next t ↔
    inWindow s.params addr = true ∧ accessAllowed addr width = true ∧
      ∃ v, readReg (windowReg (addr - s.params.mmBase)) s = .ok v ∧ t = respond (.value v) s := by
  cases hw : inWindow s.params addr <;> cases ha : accessAllowed addr width <;>
    cases hv : readReg (windowReg (addr - s.params.mmBase)) s <;>
    simp [busAccess, BusAccess.addr, BusAccess.width, hw, ha, hv, readAccess, eq_comm]

/-- A step that answers a next state: a core turn, a reset, or a bus access. -/
theorem step_cases {s t : State} (h : step s = .next t) :
    (s.inputs = [] ∧ coreTurn s = .next t) ∨
    (∃ rest, s.inputs = .core :: rest ∧ coreTurn (withInputs rest s) = .next t) ∨
    (∃ rest, s.inputs = .reset :: rest ∧ t = resetBlock (withInputs rest s)) ∨
    (∃ x rest, s.inputs = .bus x :: rest ∧ busAccess x (withInputs rest s) = .next t) := by
  unfold step at h
  split at h
  · rename_i e rest he
    cases e with
    | bus x => exact .inr (.inr (.inr ⟨x, rest, he, h⟩))
    | core => exact .inr (.inl ⟨rest, he, h⟩)
    | reset => cases h; exact .inr (.inr (.inl ⟨rest, he, rfl⟩))
  · rename_i he
    exact .inl ⟨he, h⟩

/-- The first step of a run. -/
theorem run_succ {k : Nat} {s t : State} (h : step s = .next t) : run (k + 1) s = run k t := by
  simp only [run, Host.Core.run, Sys2Proof.core, h]

end Sys2Proof.Machine
end

