-- ==== Sys2Proof/Laws/Limbs.lean ====
section
/-! SUPPORT. Limb vectors and their integer values (spec/00_scope.md R14): val and limbs are inverse to each
other, val is below 2^320, and the list a limb loop produced is the vector's list. -/

namespace Sys2Proof

@[simp] theorem valList_nil : valList [] = 0 := rfl

@[simp] theorem valList_cons (x : Word) (xs : List Word) :
    valList (x :: xs) = x.toNat + 2 ^ 32 * valList xs := rfl

theorem valList_lt : ∀ l : List Word, valList l < 2 ^ (32 * l.length)
  | [] => by simp
  | x :: xs => by
    have ih := valList_lt xs
    have hx : x.toNat < 2 ^ 32 := x.isLt
    have hp : 2 ^ (32 * (x :: xs).length) = 2 ^ 32 * 2 ^ (32 * xs.length) := by
      rw [List.length_cons, ← pow_add]; congr 1; omega
    rw [hp, valList_cons]
    nlinarith

theorem valList_append : ∀ l k : List Word,
    valList (l ++ k) = valList l + 2 ^ (32 * l.length) * valList k
  | [], k => by simp
  | x :: xs, k => by
    have ih := valList_append xs k
    have hp : 2 ^ (32 * (x :: xs).length) = 2 ^ 32 * 2 ^ (32 * xs.length) := by
      rw [List.length_cons, ← pow_add]; congr 1; omega
    rw [List.cons_append, valList_cons, valList_cons, ih, hp]; ring

theorem valList_injective : ∀ l k : List Word, l.length = k.length → valList l = valList k → l = k
  | [], [], _, _ => rfl
  | x :: xs, y :: ys, hl, hv => by
    have hx : x.toNat < 2 ^ 32 := x.isLt
    have hy : y.toNat < 2 ^ 32 := y.isLt
    rw [valList_cons, valList_cons] at hv
    have h1 : x.toNat = y.toNat := by omega
    have h2 : valList xs = valList ys := by omega
    rw [BitVec.eq_of_toNat_eq h1, valList_injective xs ys (by simpa using hl) h2]

theorem val_lt (x : Limbs) : val x < 2 ^ 320 := by
  have h := valList_lt x.toList
  rwa [Vector.length_toList, show 32 * 10 = 320 from rfl] at h

theorem val_injective {x y : Limbs} (h : val x = val y) : x = y := by
  have := valList_injective x.toList y.toList (by simp) h
  exact Vector.toList_inj.mp this

@[simp] theorem toList_ofWords {l : List Word} (h : l.length = 10) : (ofWords l).toList = l := by
  apply List.ext_getElem
  · simp [h]
  · intro i h1 h2
    simp [ofWords, List.getD_eq_getElem?_getD, List.getElem?_eq_getElem h2]

theorem val_ofWords {l : List Word} (h : l.length = 10) : val (ofWords l) = valList l := by
  rw [val, toList_ofWords h]

/-- The k lowest limbs of a number, as a list. -/
def wordsOf : Nat → Nat → List Word
  | 0, _ => []
  | k + 1, v => BitVec.ofNat 32 v :: wordsOf k (v / 2 ^ 32)

theorem wordsOf_length : ∀ k v, (wordsOf k v).length = k
  | 0, _ => rfl
  | k + 1, v => by simp [wordsOf, wordsOf_length k]

theorem wordsOf_getElem : ∀ k v i (h : i < (wordsOf k v).length),
    (wordsOf k v)[i] = BitVec.ofNat 32 (v / 2 ^ (32 * i))
  | 0, _, i, h => by simp [wordsOf] at h
  | k + 1, v, 0, h => by simp [wordsOf]
  | k + 1, v, i + 1, h => by
    have hp : 2 ^ (32 * (i + 1)) = 2 ^ 32 * 2 ^ (32 * i) := by rw [← pow_add]; congr 1; omega
    simp only [wordsOf, List.getElem_cons_succ]
    rw [wordsOf_getElem k _ i, Nat.div_div_eq_div_mul, hp]

theorem valList_wordsOf : ∀ k v, v < 2 ^ (32 * k) → valList (wordsOf k v) = v
  | 0, v, h => by simp at h; simp [wordsOf, h]
  | k + 1, v, h => by
    have hp : 2 ^ (32 * (k + 1)) = 2 ^ 32 * 2 ^ (32 * k) := by rw [← pow_add]; congr 1; omega
    have hd : v / 2 ^ 32 < 2 ^ (32 * k) := Nat.div_lt_of_lt_mul (hp ▸ h)
    rw [wordsOf, valList_cons, valList_wordsOf k _ hd, BitVec.toNat_ofNat]
    exact Nat.mod_add_div v (2 ^ 32)

theorem toList_limbs (v : Nat) : (limbs v).toList = wordsOf 10 v := by
  apply List.ext_getElem
  · simp [wordsOf_length]
  · intro i h1 h2
    rw [wordsOf_getElem]
    simp [limbs]

theorem val_limbs {v : Nat} (h : v < 2 ^ 320) : val (limbs v) = v := by
  rw [val, toList_limbs]
  exact valList_wordsOf 10 v (by rwa [show 32 * 10 = 320 from rfl])

theorem limbs_val (x : Limbs) : limbs (val x) = x := val_injective (val_limbs (val_lt x))

theorem val_zero : val Rom.zero = 0 := by decide

theorem val_one : val Rom.one = 1 := by decide

theorem modulus_lt : modulus < 2 ^ 319 := by decide +kernel

theorem modulus_pos : 0 < modulus := by decide +kernel

theorem lt_modulus : 2 ^ 318 < modulus := by decide +kernel

end Sys2Proof
end

