-- ==== Sys2Proof/Laws/Primitives.lean ====
section
/-! SUPPORT. What each raw limb function and each conditional reducer computes, as integers
(spec/40_primitives.md R101 to R106), and the laws of feq and sample (spec/44_sample_eq_const.md R181, R185). -/

namespace Sys2Proof

theorem addChain_length : ∀ (xs ys : List Word) (c : Bool), xs.length = ys.length →
    (addChain xs ys c).1.length = xs.length
  | [], [], _, _ => rfl
  | x :: xs, y :: ys, c, h => by
    simp [addChain, addChain_length xs ys _ (by simpa using h)]

/-- One limb of a carry chain: the low word and the carry make up the exact sum. -/
theorem low_add_carry {s : Nat} (h : s < 2 ^ 33) :
    (BitVec.ofNat 32 s).toNat + 2 ^ 32 * (decide (2 ^ 32 ≤ s)).toNat = s := by
  rw [BitVec.toNat_ofNat]
  by_cases hs : 2 ^ 32 ≤ s
  · rw [decide_eq_true hs, Bool.toNat_true]; omega
  · rw [decide_eq_false hs, Bool.toNat_false]; omega

theorem addChain_val : ∀ (xs ys : List Word) (c : Bool), xs.length = ys.length →
    valList (addChain xs ys c).1 + 2 ^ (32 * xs.length) * (addChain xs ys c).2.toNat
      = valList xs + valList ys + c.toNat
  | [], [], c, _ => by simp [addChain]
  | x :: xs, y :: ys, c, h => by
    have hx := x.isLt
    have hy := y.isLt
    have hc : c.toNat ≤ 1 := Bool.toNat_le c
    have hs : x.toNat + y.toNat + c.toNat < 2 ^ 33 := by omega
    have ih := addChain_val xs ys (decide (2 ^ 32 ≤ x.toNat + y.toNat + c.toNat)) (by simpa using h)
    have hl := low_add_carry hs
    have hp : 2 ^ (32 * (x :: xs).length) = 2 ^ 32 * 2 ^ (32 * xs.length) := by
      rw [List.length_cons, ← pow_add]; congr 1; omega
    simp only [addChain, valList_cons, hp]
    linear_combination 2 ^ 32 * ih + hl

theorem addInner_val (a b : Limbs) : val (addInner a b) = (val a + val b) % 2 ^ 320 := by
  have hl : (addChain a.toList b.toList false).1.length = 10 := by
    rw [addChain_length _ _ _ (by simp)]; simp
  have h := addChain_val a.toList b.toList false (by simp)
  rw [addInner, val_ofWords hl]
  have hb := valList_lt (addChain a.toList b.toList false).1
  rw [hl] at hb
  rw [Vector.length_toList] at h
  rw [val, val, show 320 = 32 * 10 from rfl]
  simp only [Bool.toNat_false, add_zero] at h
  rw [← h, Nat.add_mul_mod_self_left, Nat.mod_eq_of_lt hb]

theorem subChain_length : ∀ (xs ys : List Word) (br : Bool), xs.length = ys.length →
    (subChain xs ys br).1.length = xs.length
  | [], [], _, _ => rfl
  | x :: xs, y :: ys, br, h => by
    simp [subChain, subChain_length xs ys _ (by simpa using h)]

/-- One limb of a borrow chain: the low word less the borrow makes up the exact difference. -/
theorem low_sub_borrow {d : Int} (h1 : -(2 ^ 32) ≤ d) (h2 : d < 2 ^ 32) :
    ((BitVec.ofInt 32 d).toNat : Int) = d + 2 ^ 32 * (decide (d < 0)).toNat := by
  rw [BitVec.toNat_ofInt]
  by_cases hd : d < 0
  · rw [decide_eq_true hd, Bool.toNat_true]; omega
  · rw [decide_eq_false hd, Bool.toNat_false]; omega

theorem subChain_val : ∀ (xs ys : List Word) (br : Bool), xs.length = ys.length →
    (valList (subChain xs ys br).1 : Int) + valList ys + br.toNat
      = valList xs + 2 ^ (32 * xs.length) * (subChain xs ys br).2.toNat
  | [], [], br, _ => by simp [subChain]
  | x :: xs, y :: ys, br, h => by
    have hx := x.isLt
    have hy := y.isLt
    have hc : br.toNat ≤ 1 := Bool.toNat_le br
    have ih := subChain_val xs ys (decide ((x.toNat : Int) - y.toNat - br.toNat < 0)) (by simpa using h)
    have hl := low_sub_borrow (d := (x.toNat : Int) - y.toNat - br.toNat) (by omega) (by omega)
    have hp : (2 : Int) ^ (32 * (x :: xs).length) = 2 ^ 32 * 2 ^ (32 * xs.length) := by
      rw [List.length_cons, ← pow_add]; congr 1; omega
    simp only [subChain, valList_cons, hp, Nat.cast_add, Nat.cast_mul, Nat.cast_pow, Nat.cast_ofNat]
    linear_combination 2 ^ 32 * ih + hl

/-- sub_inner as integers: the borrow, and the wrapped difference (R102). -/
theorem subInner_spec (a b : Limbs) :
    subInner a b = ((subInner a b).1, maskOf (decide (val a < val b))) ∧
      val (subInner a b).1 = if val a < val b then val a + 2 ^ 320 - val b else val a - val b := by
  have hl : (subChain a.toList b.toList false).1.length = 10 := by
    rw [subChain_length _ _ _ (by simp)]; simp
  have h := subChain_val a.toList b.toList false (by simp)
  have hb := valList_lt (subChain a.toList b.toList false).1
  have ha := val_lt a
  have hbb := val_lt b
  rw [hl, show 32 * 10 = 320 from rfl] at hb
  rw [Vector.length_toList, show 32 * 10 = 320 from rfl] at h
  simp only [Bool.toNat_false, Nat.cast_zero, add_zero] at h
  have hv : val (subInner a b).1 = valList (subChain a.toList b.toList false).1 := val_ofWords hl
  have hm : (subInner a b).2 = maskOf (subChain a.toList b.toList false).2 := rfl
  rw [show valList a.toList = val a from rfl, show valList b.toList = val b from rfl, ← hv] at h
  rw [← hv] at hb
  have hd : (subChain a.toList b.toList false).2 = decide (val a < val b) := by
    cases hbr : (subChain a.toList b.toList false).2 <;>
      simp only [hbr, Bool.toNat_false, Bool.toNat_true, Nat.cast_zero, Nat.cast_one, mul_zero, add_zero, mul_one]
        at h <;> symm <;> simp only [decide_eq_true_eq, decide_eq_false_iff_not] <;> omega
  refine ⟨Prod.ext rfl (by rw [hm, hd]), ?_⟩
  rw [hd] at h
  by_cases hlt : val a < val b
  · simp only [hlt, decide_true, Bool.toNat_true, Nat.cast_one, mul_one, if_true] at h ⊢
    omega
  · simp only [hlt, decide_false, Bool.toNat_false, Nat.cast_zero, mul_zero, add_zero, if_false] at h ⊢
    omega

theorem select_false (a b : Limbs) : select (maskOf false) a b = a := by
  apply Vector.ext; intro i hi; simp [select, maskOf]

theorem select_true (a b : Limbs) : select (maskOf true) a b = b := by
  apply Vector.ext; intro i hi
  rw [show maskOf true = BitVec.allOnes 32 from rfl, select, Vector.getElem_zipWith, BitVec.allOnes_and,
    ← BitVec.xor_assoc, BitVec.xor_self, BitVec.zero_xor]

/-- reduce_sub subtracts N exactly when it does not borrow (R105). -/
theorem reduceSub_val (r : Limbs) :
    val (reduceSub r) = if modulus ≤ val r then val r - modulus else val r := by
  obtain ⟨hm, hv⟩ := subInner_spec r Rom.n
  change val (subInner r Rom.n).1 = if val r < modulus then val r + 2 ^ 320 - modulus else val r - modulus at hv
  change subInner r Rom.n = ((subInner r Rom.n).1, maskOf (decide (val r < modulus))) at hm
  rw [reduceSub, hm]
  by_cases h : val r < modulus
  · simp only [h, decide_true, select_true, if_neg (Nat.not_le.mpr h)]
  · rw [decide_eq_false h, select_false, hv, if_neg h, if_pos (Nat.not_lt.mp h)]

/-- reduce_add adds N back, mod 2^320, exactly when the mask says so (R106). -/
theorem reduceAdd_val (r : Limbs) (borrow : Bool) :
    val (reduceAdd r (maskOf borrow)) = if borrow then (val r + modulus) % 2 ^ 320 else val r := by
  cases borrow
  · simp [reduceAdd, select_false]
  · rw [reduceAdd, select_true, addInner_val, if_pos rfl, modulus]

/-- feq compares limb vectors (R185, R187). -/
theorem feq_iff (a b : Limbs) : feq a b = true ↔ a = b := by
  have key : ∀ (xs ys : List Word) (x : Word), xs.length = ys.length →
      ((List.zipWith (fun x y => x ^^^ y) xs ys).foldl (fun x d => x ||| d) x = 0 ↔ x = 0 ∧ xs = ys) := by
    intro xs
    induction xs with
    | nil => intro ys x h; cases ys <;> simp_all
    | cons u us ih =>
      intro ys x h
      cases ys with
      | nil => simp at h
      | cons v vs =>
        rw [List.zipWith_cons_cons, List.foldl_cons, ih vs _ (by simpa using h), List.cons.injEq]
        constructor
        · rintro ⟨h0, h1⟩
          have hx : x = 0 := by
            apply BitVec.eq_of_getLsbD_eq; intro i hi
            have := congrArg (fun w : Word => w.getLsbD i) h0
            simp at this; simp [this.1]
          refine ⟨hx, ?_, h1⟩
          exact BitVec.xor_eq_zero_iff.mp (by simpa [hx] using h0)
        · rintro ⟨rfl, rfl, rfl⟩; simp
  have h := key a.toList b.toList 0 (by simp)
  rw [feq, beq_iff_eq, h]
  simp [Vector.toList_inj]

end Sys2Proof
end

