-- ==== Sys2Proof/Laws/Kernel.lean ====
section
/-! SUPPORT. What the Montgomery kernel computes, as integers (spec/41_montgomery.md R121 to R124): the inner
loop, one outer iteration, the loop, and mont_mul for a canonical operand a. -/

namespace Sys2Proof

theorem kernelInner_length : ∀ (m f : Word) (as ns rs : List Word) (cc1 cc2 : Word),
    ns.length = as.length → rs.length = as.length → (kernelInner m f as ns rs cc1 cc2).1.length = as.length
  | _, _, [], [], [], _, _, _, _ => rfl
  | m, f, a :: as, n :: ns, r :: rs, cc1, cc2, hn, hr => by
    simp [kernelInner, kernelInner_length m f as ns rs _ _ (by simpa using hn) (by simpa using hr)]

/-- The inner loop adds a · m and f · N to the accumulator; what does not fit stands in the two carries. -/
theorem kernelInner_val : ∀ (m f : Word) (as ns rs : List Word) (cc1 cc2 : Word),
    ns.length = as.length → rs.length = as.length →
    valList (kernelInner m f as ns rs cc1 cc2).1 + 2 ^ (32 * as.length) *
        ((kernelInner m f as ns rs cc1 cc2).2.1.toNat + (kernelInner m f as ns rs cc1 cc2).2.2.toNat)
      = valList as * m.toNat + f.toNat * valList ns + valList rs + cc1.toNat + cc2.toNat
  | _, _, [], [], [], cc1, cc2, _, _ => by simp [kernelInner]
  | m, f, a :: as, n :: ns, r :: rs, cc1, cc2, hn, hr => by
    have ha := a.isLt
    have hnn := n.isLt
    have hrr := r.isLt
    have hm := m.isLt
    have hf := f.isLt
    have h1 := cc1.isLt
    have h2 := cc2.isLt
    have hp : 2 ^ (32 * (a :: as).length) = 2 ^ 32 * 2 ^ (32 * as.length) := by
      rw [List.length_cons, ← pow_add]; congr 1; omega
    generalize hz1 : a.toNat * m.toNat + r.toNat + cc1.toNat = z1
    generalize hz2 : f.toNat * n.toNat + z1 % 2 ^ 32 + cc2.toNat = z2
    have hb1 : z1 / 2 ^ 32 < 2 ^ 32 := by
      apply Nat.div_lt_of_lt_mul; rw [← hz1]; nlinarith
    have hb2 : z2 / 2 ^ 32 < 2 ^ 32 := by
      have : z1 % 2 ^ 32 < 2 ^ 32 := Nat.mod_lt _ (by norm_num)
      apply Nat.div_lt_of_lt_mul; rw [← hz2]; nlinarith
    have ih := kernelInner_val m f as ns rs (BitVec.ofNat 32 (z1 / 2 ^ 32)) (BitVec.ofNat 32 (z2 / 2 ^ 32))
      (by simpa using hn) (by simpa using hr)
    rw [BitVec.toNat_ofNat, BitVec.toNat_ofNat, Nat.mod_eq_of_lt hb1, Nat.mod_eq_of_lt hb2] at ih
    have e1 := Nat.mod_add_div z1 (2 ^ 32)
    have e2 := Nat.mod_add_div z2 (2 ^ 32)
    simp only [kernelInner, hz1, hz2, valList_cons, hp, BitVec.toNat_ofNat]
    generalize z1 % 2 ^ 32 = l1 at *
    generalize z2 % 2 ^ 32 = l2 at *
    generalize z1 / 2 ^ 32 = q1 at *
    generalize z2 / 2 ^ 32 = q2 at *
    linear_combination 2 ^ 32 * ih + e1 + e2 - hz1 - hz2

/-- N[0] · N0I ≡ −1 (mod 2^32) (R30). -/
theorem n0i_spec : (Rom.n.toList.headD 0) * Rom.n0i = -1 := by decide

/-- The low word of the inner loop is 0: f cancels it (R124). -/
theorem kernelInner_low (m a n r : Word) (as ns rs : List Word) (h : n * Rom.n0i = -1) :
    (kernelInner m (kernelF (a :: as) (r :: rs) m) (a :: as) (n :: ns) (r :: rs) 0 0).1.headD 0 = 0 := by
  simp only [kernelInner, kernelF, List.headD_cons]
  generalize hx : a * m + r = x
  have hx' : (a.toNat * m.toNat + r.toNat) % 2 ^ 32 = x.toNat := by
    rw [← hx]; simp
  have hz : BitVec.ofNat 32 ((x * Rom.n0i).toNat * n.toNat +
      (a.toNat * m.toNat + r.toNat + (0 : Word).toNat) % 2 ^ 32 + (0 : Word).toNat) = x * Rom.n0i * n + x := by
    apply BitVec.eq_of_toNat_eq
    rw [show (0 : Word).toNat = 0 from rfl, Nat.add_zero, Nat.add_zero, hx', BitVec.toNat_ofNat, BitVec.toNat_add,
      BitVec.toNat_mul (x * Rom.n0i), Nat.mod_add_mod]
  rw [hz, BitVec.mul_assoc, BitVec.mul_comm Rom.n0i n, h, mul_neg, mul_one, neg_add_cancel]

/-- The same for lists that are not empty. -/
theorem kernelInner_low_of_ne (m : Word) (as ns rs : List Word) (ha : as ≠ []) (hr : rs ≠ [])
    (h : ns.headD 0 * Rom.n0i = -1) :
    (kernelInner m (kernelF as rs m) as ns rs 0 0).1.headD 0 = 0 := by
  obtain ⟨a, as, rfl⟩ := List.exists_cons_of_ne_nil ha
  obtain ⟨r, rs, rfl⟩ := List.exists_cons_of_ne_nil hr
  cases ns with
  | nil => exact absurd h (by decide)
  | cons n ns => exact kernelInner_low m a n r as ns rs h

theorem kernelStep_length (a r : List Word) (m : Word) (ha : a.length = 10) (hr : r.length = 10) :
    (kernelStep a r m).1.length = 10 := by
  have := kernelInner_length m (kernelF a r m) a Rom.n.toList r 0 0 (by simp [ha]) (by simp [ha, hr])
  rw [kernelStep, List.length_append, List.length_drop, this, ha]
  rfl

/-- One outer iteration for a < N and r < 2N: it divides r + a · m + f · N by 2^32 exactly, stays below 2N, and
cc1 + cc2 does not reach 2^32 (R123 (a), (b), (c)). -/
theorem kernelStep_spec (a r : List Word) (m : Word) (ha : a.length = 10) (hr : r.length = 10)
    (hav : valList a < modulus) (hrv : valList r < 2 * modulus) :
    2 ^ 32 * valList (kernelStep a r m).1 = valList r + valList a * m.toNat + (kernelF a r m).toNat * modulus ∧
      valList (kernelStep a r m).1 < 2 * modulus ∧ (kernelStep a r m).2 = false := by
  have hlen := kernelInner_length m (kernelF a r m) a Rom.n.toList r 0 0 (by simp [ha]) (by simp [ha, hr])
  have hval := kernelInner_val m (kernelF a r m) a Rom.n.toList r 0 0 (by simp [ha]) (by simp [ha, hr])
  have hlow : (kernelInner m (kernelF a r m) a Rom.n.toList r 0 0).1.headD 0 = 0 :=
    kernelInner_low_of_ne m a Rom.n.toList r (by rintro rfl; simp at ha) (by rintro rfl; simp at hr) n0i_spec
  have hm := m.isLt
  have hf := (kernelF a r m).isLt
  have hN := modulus_lt
  rw [ha] at hlen hval
  rw [show 32 * 10 = 320 from rfl] at hval
  simp only [kernelStep]
  generalize kernelInner m (kernelF a r m) a Rom.n.toList r 0 0 = t at *
  generalize kernelF a r m = f at *
  obtain ⟨ts, c1, c2⟩ := t
  change valList ts + 2 ^ 320 * (c1.toNat + c2.toNat)
    = valList a * m.toNat + f.toNat * modulus + valList r + 0 + 0 at hval
  match ts, hlen, hlow with
  | t0 :: ts, hlen, hlow =>
    change t0 = 0 at hlow
    subst hlow
    have hl : ts.length = 9 := by simpa using hlen
    rw [valList_cons, show (0 : Word).toNat = 0 from rfl, Nat.zero_add] at hval
    have hbound : c1.toNat + c2.toNat < 2 ^ 32 := by
      by_contra hc
      have h1 : 2 ^ 320 * 2 ^ 32 ≤ valList a * m.toNat + f.toNat * modulus + valList r := by
        calc 2 ^ 320 * 2 ^ 32 ≤ 2 ^ 320 * (c1.toNat + c2.toNat) := by
              apply Nat.mul_le_mul_left; omega
          _ ≤ _ := by omega
      have h2 : valList a * m.toNat ≤ modulus * (2 ^ 32 - 1) := Nat.mul_le_mul hav.le (by omega)
      have h3 : f.toNat * modulus ≤ (2 ^ 32 - 1) * modulus := Nat.mul_le_mul_right _ (by omega)
      generalize modulus = N at *
      omega
    have htop : (c1 + c2).toNat = c1.toNat + c2.toNat := by
      rw [BitVec.toNat_add, Nat.mod_eq_of_lt hbound]
    have heq : 2 ^ 32 * valList (ts ++ [topLimb c1 c2]) = valList r + valList a * m.toNat + f.toNat * modulus := by
      rw [valList_append, hl, valList_cons, valList_nil, topLimb, htop]
      generalize valList a * m.toNat = x at *
      generalize f.toNat * modulus = z at *
      omega
    refine ⟨heq, ?_, by simp only [topOverflows, decide_eq_false_iff_not]; omega⟩
    have h2 : valList a * m.toNat ≤ modulus * (2 ^ 32 - 1) := Nat.mul_le_mul hav.le (by omega)
    have h3 : f.toNat * modulus ≤ (2 ^ 32 - 1) * modulus := Nat.mul_le_mul_right _ (by omega)
    change valList (ts ++ [topLimb c1 c2]) < _
    generalize valList (ts ++ [topLimb c1 c2]) = v at *
    generalize modulus = N at *
    omega

/-- The outer loop for a < N and r < 2N (R123 (a) to (d)). -/
theorem kernelLoop_spec (a : List Word) (ha : a.length = 10) (hav : valList a < modulus) :
    ∀ (bs r : List Word) (ov : Bool), r.length = 10 → valList r < 2 * modulus →
      ∃ q, 2 ^ (32 * bs.length) * valList (kernelLoop a bs r ov).1 = valList r + valList a * valList bs + q * modulus ∧
        valList (kernelLoop a bs r ov).1 < 2 * modulus ∧ (kernelLoop a bs r ov).1.length = 10 ∧
        (kernelLoop a bs r ov).2 = ov
  | [], r, ov, hr, hrv => ⟨0, by simp [kernelLoop], hrv, hr, rfl⟩
  | m :: bs, r, ov, hr, hrv => by
    obtain ⟨h1, h2, h3⟩ := kernelStep_spec a r m ha hr hav hrv
    obtain ⟨q, e, hlt, hlen, hov⟩ := kernelLoop_spec a ha hav bs (kernelStep a r m).1 (ov || (kernelStep a r m).2)
      (kernelStep_length a r m ha hr) h2
    refine ⟨(kernelF a r m).toNat + 2 ^ 32 * q, ?_, hlt, hlen, by rw [kernelLoop, hov, h3, Bool.or_false]⟩
    have hp : 2 ^ (32 * (m :: bs).length) = 2 ^ 32 * 2 ^ (32 * bs.length) := by
      rw [List.length_cons, ← pow_add]; congr 1; omega
    change 2 ^ (32 * (m :: bs).length) * valList (kernelLoop a bs (kernelStep a r m).1 (ov || (kernelStep a r m).2)).1 = _
    rw [hp, valList_cons, Nat.mul_assoc, e]
    linear_combination h1

/-- mont_mul(a, b) for val(a) < N: canonical, equal to a · b · R^(−1) mod N, and without overflow of the top
limb; b is any vector (R123). -/
theorem kernel_spec (a b : Limbs) (ha : Canonical a) :
    Canonical (kernel a b).value ∧ (kernel a b).overflow = false ∧
      val (kernel a b).value * 2 ^ 320 % modulus = val a * val b % modulus := by
  obtain ⟨q, e, hlt, hlen, hov⟩ := kernelLoop_spec a.toList (by simp) ha b.toList Rom.zero.toList false (by simp)
    (by rw [show valList Rom.zero.toList = 0 from val_zero]; exact Nat.mul_pos two_pos modulus_pos)
  have hR : 2 ^ 320 * val (ofWords (kernelLoop a.toList b.toList Rom.zero.toList false).1)
      = val a * val b + q * modulus := by
    rw [val_ofWords hlen]
    rw [Vector.length_toList, show 32 * 10 = 320 from rfl, show valList Rom.zero.toList = 0 from val_zero,
      Nat.zero_add] at e
    rw [e, val, val]
  have hlt' : val (ofWords (kernelLoop a.toList b.toList Rom.zero.toList false).1) < 2 * modulus := by
    rw [val_ofWords hlen]; exact hlt
  have hred := reduceSub_val (ofWords (kernelLoop a.toList b.toList Rom.zero.toList false).1)
  have hv : (kernel a b).value = reduceSub (ofWords (kernelLoop a.toList b.toList Rom.zero.toList false).1) := rfl
  rw [← hv] at hred
  refine ⟨?_, hov, ?_⟩
  · rw [Canonical, hred]; split <;> omega
  · rw [hred]
    generalize val (ofWords (kernelLoop a.toList b.toList Rom.zero.toList false).1) = v at *
    split
    · rename_i h
      have : (v - modulus) * 2 ^ 320 + modulus * 2 ^ 320 = val a * val b + q * modulus := by
        rw [← Nat.add_mul, Nat.sub_add_cancel h, Nat.mul_comm, hR]
      calc (v - modulus) * 2 ^ 320 % modulus
          = ((v - modulus) * 2 ^ 320 + modulus * 2 ^ 320) % modulus := (Nat.add_mul_mod_self_left _ _ _).symm
        _ = _ := by rw [this]; simp
    · rw [Nat.mul_comm, hR]; simp

end Sys2Proof
end

