-- ==== Sys2Proof/Laws/Field.lean ====
section
/-! SUPPORT. What the field functions compute, as integers: addition, subtraction, multiplication, domain
conversion and exponentiation (spec/41_montgomery.md R126 to R128, spec/42_field_arith.md R145,
spec/43_exponentiation.md R162). -/

namespace Sys2Proof

/-- R^(−1) mod N (spec/95_test_vectors.md, RI). -/
def rInv : Nat := 0x3e48b90839622cffcc3e68b9872381be9ac322bef265189aec41f9947d5941b1b5cd839d4f621868

theorem rInv_spec : 2 ^ 320 * rInv % modulus = 1 := by decide +kernel

theorem two_modulus_lt : 2 * modulus < 2 ^ 320 := by decide +kernel

/-- Canonical vectors of one residue are equal. -/
theorem canonical_ext {x y : Limbs} (hx : Canonical x) (hy : Canonical y)
    (h : (val x : ZMod modulus) = val y) : x = y := by
  rw [ZMod.natCast_eq_natCast_iff', Nat.mod_eq_of_lt hx, Nat.mod_eq_of_lt hy] at h
  exact val_injective h

/-- The residue class of a vector in Montgomery form: val(x) · R^(−1) mod N (R17). -/
def montClass (x : Limbs) : ZMod modulus := (val x : ZMod modulus) * (rInv : ZMod modulus)

theorem cast_mod (n : Nat) : ((n % modulus : Nat) : ZMod modulus) = n := by
  rw [ZMod.natCast_mod]

theorem r_rInv : ((2 ^ 320 : Nat) : ZMod modulus) * (rInv : ZMod modulus) = 1 := by
  have h := congrArg (fun n : Nat => (n : ZMod modulus)) rInv_spec
  simp only [cast_mod] at h
  rw [← Nat.cast_mul, h, Nat.cast_one]

/-- Two canonical values with the same class are equal. -/
theorem eq_mod_of_cast {m n : Nat} (hm : m < modulus) (h : (m : ZMod modulus) = n) : m = n % modulus := by
  rw [ZMod.natCast_eq_natCast_iff'] at h
  rw [← h, Nat.mod_eq_of_lt hm]

/-- mont_mul as a product of classes: val(y) = val(a) · val(b) · R^(−1) (R123). -/
theorem kernel_cast (a b : Limbs) (ha : Canonical a) :
    ((val (kernel a b).value : Nat) : ZMod modulus) = val a * val b * rInv := by
  have h := congrArg (fun n : Nat => (n : ZMod modulus)) (kernel_spec a b ha).2.2
  simp only [cast_mod] at h
  rw [Nat.cast_mul, Nat.cast_mul] at h
  rw [← h, mul_assoc, r_rInv, mul_one]

theorem montClass_kernel (a b : Limbs) (ha : Canonical a) :
    montClass (kernel a b).value = montClass a * montClass b := by
  rw [montClass, montClass, montClass, kernel_cast a b ha]; ring

theorem r2_cast : ((val Rom.r2 : Nat) : ZMod modulus) = (2 ^ 320 : Nat) * (2 ^ 320 : Nat) := by
  have h : val Rom.r2 = 2 ^ 320 * 2 ^ 320 % modulus := by decide +kernel
  rw [h, cast_mod, Nat.cast_mul]

theorem rm_cast : ((val Rom.rm : Nat) : ZMod modulus) = (2 ^ 320 : Nat) := by
  have h : val Rom.rm = 2 ^ 320 % modulus := by decide +kernel
  rw [h, cast_mod]

theorem rm_canonical : Canonical Rom.rm := by decide +kernel

theorem one_canonical : Canonical Rom.one := by decide +kernel

theorem zero_canonical : Canonical Rom.zero := by decide +kernel

theorem montClass_rm : montClass Rom.rm = 1 := by rw [montClass, rm_cast, r_rInv]

/-- to_mont(x) for canonical x (R126). -/
theorem toMont_spec (x : Limbs) (hx : Canonical x) :
    Canonical (toMontT x).value ∧ (toMontT x).overflow = false ∧ montClass (toMontT x).value = (val x : ZMod modulus) := by
  obtain ⟨h1, h2, -⟩ := kernel_spec x Rom.r2 hx
  refine ⟨h1, h2, ?_⟩
  change montClass (kernel x Rom.r2).value = _
  rw [montClass_kernel x Rom.r2 hx, montClass, montClass, r2_cast]
  linear_combination (val x : ZMod modulus) * (((2 ^ 320 : Nat) : ZMod modulus) * rInv + 1) * r_rInv

/-- from_mont(x) for canonical x (R127). -/
theorem fromMont_spec (x : Limbs) (hx : Canonical x) :
    Canonical (fromMontT x).value ∧ (fromMontT x).overflow = false ∧
      ((val (fromMontT x).value : Nat) : ZMod modulus) = montClass x := by
  obtain ⟨h1, h2, -⟩ := kernel_spec x Rom.one hx
  refine ⟨h1, h2, ?_⟩
  change ((val (kernel x Rom.one).value : Nat) : ZMod modulus) = _
  rw [kernel_cast x Rom.one hx, val_one, montClass, Nat.cast_one, mul_one]

/-- fmul for canonical a and any b (R145(c)). -/
theorem fmul_spec (a b : Limbs) (ha : Canonical a) :
    (fmulT a b).overflow = false ∧ val (fmulT a b).value = val a * val b % modulus := by
  obtain ⟨h1, h2, h3⟩ := toMont_spec a ha
  obtain ⟨k1, k2, -⟩ := kernel_spec (toMontT a).value b h1
  have hov : (fmulT a b).overflow = ((toMontT a).overflow || (kernel (toMontT a).value b).overflow) := rfl
  refine ⟨by rw [hov, h2, k2]; rfl, ?_⟩
  apply eq_mod_of_cast k1
  rw [kernel_cast _ b h1, Nat.cast_mul, ← h3, montClass]; ring

/-- fadd within its bound (R145(a)). -/
theorem fadd_val (a b : Limbs) : val (fadd a b) =
    if modulus ≤ (val a + val b) % 2 ^ 320 then (val a + val b) % 2 ^ 320 - modulus else (val a + val b) % 2 ^ 320 := by
  rw [fadd, reduceSub_val, addInner_val]

/-- fsub, with and without a borrow (R145(b)). -/
theorem fsub_val (a b : Limbs) : val (fsub a b) =
    if val a < val b then (val a + 2 ^ 320 - val b + modulus) % 2 ^ 320 else val a - val b := by
  obtain ⟨hm, hv⟩ := subInner_spec a b
  rw [fsub, hm, reduceAdd_val, hv]
  by_cases h : val a < val b <;> simp only [h, decide_true, decide_false, if_true, if_false, Bool.false_eq_true]

/-- The number a list of bits stands for, most significant bit first. -/
def bitsVal : List Bool → Nat
  | [] => 0
  | b :: bs => b.toNat * 2 ^ bs.length + bitsVal bs

/-- One iteration of the exponentiation loop: the accumulator is canonical, so it stays canonical, whatever the
Montgomery base is (R162(b)). -/
theorem powStep_spec (bm acc : Limbs) (bit : Bool) (h : Canonical acc) :
    Canonical (powStep bm acc bit).value ∧ (powStep bm acc bit).overflow = false ∧
      montClass (powStep bm acc bit).value = montClass acc ^ 2 * montClass bm ^ bit.toNat := by
  obtain ⟨h1, h2, -⟩ := kernel_spec acc acc h
  have h3 := montClass_kernel acc acc h
  cases bit
  · exact ⟨h1, h2, by change montClass (kernel acc acc).value = _; rw [h3, Bool.toNat_false]; ring⟩
  · obtain ⟨k1, k2, -⟩ := kernel_spec (kernel acc acc).value bm h1
    refine ⟨k1, ?_, ?_⟩
    · change ((kernel acc acc).overflow || (kernel (kernel acc acc).value bm).overflow) = false
      rw [h2, k2]; rfl
    · change montClass (kernel (kernel acc acc).value bm).value = _
      rw [montClass_kernel _ bm h1, h3, Bool.toNat_true]; ring

/-- The exponentiation loop (R160, R162(b)). -/
theorem powLoop_spec (bm : Limbs) : ∀ (bits : List Bool) (acc : Limbs), Canonical acc →
    Canonical (powLoop bm bits acc).value ∧ (powLoop bm bits acc).overflow = false ∧
      montClass (powLoop bm bits acc).value = montClass acc ^ 2 ^ bits.length * montClass bm ^ bitsVal bits
  | [], acc, h => ⟨h, rfl, by simp [powLoop, Tracked.exact, bitsVal]⟩
  | bit :: bits, acc, h => by
    obtain ⟨h1, h2, h3⟩ := powStep_spec bm acc bit h
    obtain ⟨k1, k2, k3⟩ := powLoop_spec bm bits (powStep bm acc bit).value h1
    refine ⟨k1, ?_, ?_⟩
    · change ((powStep bm acc bit).overflow || (powLoop bm bits (powStep bm acc bit).value).overflow) = false
      rw [h2, k2]; rfl
    · change montClass (powLoop bm bits (powStep bm acc bit).value).value = _
      rw [k3, h3, bitsVal, List.length_cons, mul_pow, ← pow_mul, ← pow_mul, mul_assoc, ← pow_add,
        pow_succ' 2 bits.length]

/-- A bit of a limb list is the bit of its value (R13). -/
theorem valList_testBit : ∀ (l : List Word) (k : Nat),
    (valList l).testBit k = (l.getD (k / 32) 0).getLsbD (k % 32)
  | [], k => by simp
  | x :: xs, k => by
    have hx := x.isLt
    rw [valList_cons, Nat.add_comm, Nat.testBit_two_pow_mul_add _ hx]
    by_cases h : k < 32
    · rw [if_pos h, Nat.div_eq_of_lt h, Nat.mod_eq_of_lt h]
      simp [BitVec.getLsbD]
    · rw [if_neg h, valList_testBit xs (k - 32)]
      have h1 : k / 32 = (k - 32) / 32 + 1 := by omega
      have h2 : k % 32 = (k - 32) % 32 := by omega
      rw [h1, h2, List.getD_cons_succ]

theorem limbBit_eq (x : Limbs) (k : Nat) : limbBit x k = (val x).testBit k := (valList_testBit x.toList k).symm

theorem bitsVal_range (e : Limbs) : ∀ k, bitsVal ((List.range k).reverse.map (limbBit e)) = val e % 2 ^ k
  | 0 => by simp [bitsVal, Nat.mod_one]
  | k + 1 => by
    rw [List.range_succ, List.reverse_append, List.reverse_singleton, List.singleton_append, List.map_cons, bitsVal,
      bitsVal_range e k, limbBit_eq, Nat.mod_pow_succ, Nat.toNat_testBit]
    simp only [List.length_map, List.length_reverse, List.length_range]
    ring

theorem exponentBits_length (e : Limbs) : (exponentBits e).length = 320 := by
  rw [exponentBits, List.length_map, List.length_reverse, List.length_range]

theorem bitsVal_exponentBits (e : Limbs) : bitsVal (exponentBits e) = val e := by
  rw [exponentBits, bitsVal_range, Nat.mod_eq_of_lt (val_lt e)]

/-- fpow for every base: canonical, and the power of the class of the Montgomery base (R162(b), (c)). -/
theorem fpow_class (base e : Limbs) :
    Canonical (fpowT base e).value ∧ (fpowT base e).overflow = (toMontT base).overflow ∧
      ((val (fpowT base e).value : Nat) : ZMod modulus) = montClass (toMontT base).value ^ val e := by
  obtain ⟨h1, h2, h3⟩ := powLoop_spec (toMontT base).value (exponentBits e) Rom.rm rm_canonical
  obtain ⟨k1, k2, k3⟩ := fromMont_spec (powLoop (toMontT base).value (exponentBits e) Rom.rm).value h1
  refine ⟨k1, ?_, ?_⟩
  · change ((toMontT base).overflow || ((powLoop (toMontT base).value (exponentBits e) Rom.rm).overflow ||
      (fromMontT (powLoop (toMontT base).value (exponentBits e) Rom.rm).value).overflow)) = _
    rw [h2, k2, Bool.or_false, Bool.or_false]
  · change ((val (fromMontT (powLoop (toMontT base).value (exponentBits e) Rom.rm).value).value : Nat) : ZMod modulus) = _
    rw [k3, h3, montClass_rm, one_pow, one_mul, bitsVal_exponentBits]

/-- fpow for a canonical base (R162(a)). -/
theorem fpow_spec (base e : Limbs) (h : Canonical base) :
    (fpowT base e).overflow = false ∧ val (fpowT base e).value = val base ^ val e % modulus := by
  obtain ⟨h1, h2, h3⟩ := fpow_class base e
  obtain ⟨-, k2, k3⟩ := toMont_spec base h
  refine ⟨h2.trans k2, eq_mod_of_cast h1 ?_⟩
  rw [h3, k3, Nat.cast_pow]

end Sys2Proof
end

