-- ==== Sys2Proof/Laws/Host.lean ====
section
/-! SUPPORT. The host's temporaries, and what each kind of host statement does, said once
(spec/30_encoding.md R85). -/

namespace Sys2Proof.Machine

@[simp] theorem setTemp_position (h : HostView) (k : HostTemp) (v : Word) :
    (h.setTemp k v).position = h.position := rfl

@[simp] theorem goTo_position (h : HostView) (p : Nat) : (h.goTo p).position = p := rfl

@[simp] theorem goTo_temp (h : HostView) (p : Nat) (k : HostTemp) : (h.goTo p).temp k = h.temp k := rfl

@[simp] theorem setTemp_temp_same (h : HostView) (k : HostTemp) (v : Word) : (h.setTemp k v).temp k = some v := by
  simp [HostView.temp, HostView.setTemp]

theorem setTemp_temp_ne (h : HostView) {j k : HostTemp} (v : Word) (hjk : j ≠ k) :
    (h.setTemp k v).temp j = h.temp j := by
  simp [HostView.temp, HostView.setTemp, Ne.symm hjk]

/-- A `rd` of a register of the window that holds a value puts it in the temporary (R85, R51). -/
theorem hostStmt_rd {off : Nat} {k : HostTemp} {v : Word} {h : HostView} {s : State} (h1 : off < 0x80)
    (h2 : off % 4 = 0) (hv : readReg (windowReg off) s = .ok v) :
    hostStmt (.rd off k) h s = .next ((h.setTemp k v).goTo (h.position + 1)) (respond (.value v) s) := by
  have hb : busAccess (.read (s.params.mmBase + off) 32) s = .next (respond (.value v) s) :=
    busAccess_read_iff.mpr ⟨inWindow_offset _ _ h1, accessAllowed_offset _ _ h2, v, by
      rw [Nat.add_sub_cancel_left]; exact hv, rfl⟩
  rw [hostStmt, hb]; rfl

/-- A `wr` of a temporary is the `wr` of the word it holds (R85). -/
theorem hostStmt_wr_temp {off : Nat} {k : HostTemp} {v : Word} {h : HostView} (s : State) (hv : h.temp k = some v) :
    hostStmt (.wr off (.temp k)) h s = hostStmt (.wr off (.word v)) h s := by
  simp only [hostStmt, hv]

/-- A `wr` to limb k of A (R85, R51). -/
theorem hostStmt_wr_a (k : Fin 10) (v : Word) (h : HostView) (s : State) :
    hostStmt (.wr (4 * k.val) (.word v)) h s =
      .next (h.goTo (h.position + 1)) (respond .written (writeA k v s)) := by
  have hw := windowReg_a k
  rw [Nat.zero_add] at hw
  have hb : busAccess (.write (s.params.mmBase + 4 * k.val) 32 v) s =
      .next (respond .written (writeA k v s)) := by
    simp only [busAccess, BusAccess.addr, BusAccess.width, inWindow_offset s.params (4 * k.val) (by omega),
      accessAllowed_offset s.params (4 * k.val) (by omega), Bool.not_true, Bool.false_eq_true, if_false,
      Nat.add_sub_cancel_left, hw, writeAccess]
  simp only [hostStmt, hostWrite, hb]; rfl

/-- A branch goes to its label exactly where the bit of the temporary is 1 (R85). -/
theorem hostStmt_bit1 {k : HostTemp} {j label : Nat} {v : Word} {h : HostView} (s : State)
    (hv : h.temp k = some v) :
    hostStmt (.bit1 k j label) h s = .next (h.goTo (if v.getLsbD j then label else h.position + 1)) s := by
  simp only [hostStmt, hv]

theorem hostStep_at {program : List HostStmt} {h : HostView} {i : HostStmt} (s : State)
    (hi : program[h.position]? = some i) : hostStep program h s = hostStmt i h s := by
  simp only [hostStep, hi]

/-- The first turn of a run, where the host moves and goes on. -/
theorem hostRun_host {program : List HostStmt} {turns : List HostTurn} {h h' : HostView} {s t : State}
    (hs : hostStep program h s = .next h' t) :
    hostRun program (.host :: turns) h s = hostRun program turns h' t := by
  simp only [hostRun, hostTurn, hs]

end Sys2Proof.Machine
end

