-- ==== Sys2Proof/Laws/PerInstr.lean ====
section
/-! SUPPORT. Facts about every instruction as syntax, one lemma per constructor: its word is selected by its own row
of the match and mask table (spec/30_encoding.md R81). -/

/-- The word of i is selected by the row of its mnemonic, and i is well formed (R81, R84). -/
def Sys2Proof.Laws.RowMatch.Statement (i : Sys2Proof.Instr) : Prop :=
  (∃ r ∈ Sys2Proof.opcodeTable, r.op = i.op ∧ r.selects (Sys2Proof.encode i) = true) ∧ i.WellFormed = true

namespace Sys2Proof.Laws.RowMatch

theorem montMul (a : SrcA) (b : SrcB) : Statement (.montMul a b) := by
  cases a <;> cases b <;> unfold Statement <;> decide

theorem toMont (a : SrcA) : Statement (.toMont a) := by
  cases a <;> unfold Statement <;> decide

theorem fromMont (a : SrcA) : Statement (.fromMont a) := by
  cases a <;> unfold Statement <;> decide

theorem add (a : SrcA) (b : SrcB) : Statement (.add a b) := by
  cases a <;> cases b <;> unfold Statement <;> decide

theorem sub (a : SrcA) (b : SrcB) : Statement (.sub a b) := by
  cases a <;> cases b <;> unfold Statement <;> decide

theorem mul (a : SrcA) (b : SrcB) : Statement (.mul a b) := by
  cases a <;> cases b <;> unfold Statement <;> decide

theorem pow (a : SrcA) (b : SrcB) : Statement (.pow a b) := by
  cases a <;> cases b <;> unfold Statement <;> decide

theorem inv (a : SrcA) : Statement (.inv a) := by
  cases a <;> unfold Statement <;> decide

theorem eq (a : SrcA) (b : SrcB) : Statement (.eq a b) := by
  cases a <;> cases b <;> unfold Statement <;> decide

theorem sample : Statement .sample := by
  unfold Statement; decide

theorem ldzero : Statement .ldzero := by
  unfold Statement; decide

theorem ldone : Statement .ldone := by
  unfold Statement; decide

end Sys2Proof.Laws.RowMatch
end

