-- ==== Sys2Proof/Laws/Sample.lean ====
section
/-! SUPPORT. What sample does to the bits of a draw (spec/44_sample_eq_const.md R181, R183). -/

namespace Sys2Proof

/-- A bit of a limb that four bytes make up, least significant byte first (R181). -/
theorem leWord_getLsbD (e : Draw) (i j : Nat) (hj : j < 32) :
    (leWord e i).getLsbD j = (e.toList.getD (4 * i + j / 8) 0).getLsbD (j % 8) := by
  have h : ∀ b0 b1 b2 b3 : Byte, ∀ j : Nat, j < 32 →
      (zextByte b0 ||| (zextByte b1 <<< 8) ||| (zextByte b2 <<< 16) ||| (zextByte b3 <<< 24)).getLsbD j
        = (if j < 8 then b0.getLsbD j else if j < 16 then b1.getLsbD (j - 8)
            else if j < 24 then b2.getLsbD (j - 16) else b3.getLsbD (j - 24)) := by
    intro b0 b1 b2 b3 j hj
    have out : ∀ (b : Byte) k, 8 ≤ k → b.getLsbD k = false := fun b k hk => BitVec.getLsbD_of_ge b k hk
    simp only [zextByte, BitVec.getLsbD_or, BitVec.getLsbD_shiftLeft, BitVec.getLsbD_setWidth, hj, decide_true,
      Bool.true_and]
    by_cases h1 : j < 8
    · simp [h1, show j < 16 by omega, show j < 24 by omega]
    by_cases h2 : j < 16
    · simp [h1, h2, show j < 24 by omega, out b0 j (by omega), show j - 8 < 32 by omega]
    by_cases h3 : j < 24
    · simp [h1, h2, h3, out b0 j (by omega), out b1 (j - 8) (by omega), show j - 16 < 32 by omega]
    · simp [h1, h2, h3, out b0 j (by omega), out b1 (j - 8) (by omega), out b2 (j - 16) (by omega),
        show j - 24 < 32 by omega]
  rw [leWord, h _ _ _ _ j hj]
  by_cases h1 : j < 8
  · rw [if_pos h1, Nat.div_eq_of_lt h1, Nat.mod_eq_of_lt h1]
  by_cases h2 : j < 16
  · rw [if_neg h1, if_pos h2, show j / 8 = 1 by omega, show j % 8 = j - 8 by omega]
  by_cases h3 : j < 24
  · rw [if_neg h1, if_neg h2, if_pos h3, show j / 8 = 2 by omega, show j % 8 = j - 16 by omega]
  · rw [if_neg h1, if_neg h2, if_neg h3, show j / 8 = 3 by omega, show j % 8 = j - 24 by omega]

/-- Every bit of sample(E): bit k mod 8 of byte floor(k / 8) below bit 318, and 0 from there on (R181, R183). -/
theorem sample_testBit (e : Draw) (k : Nat) :
    (val (sample e)).testBit k = (decide (k < 318) && (e.toList.getD (k / 8) 0).getLsbD (k % 8)) := by
  rw [← limbBit_eq, limbBit]
  by_cases hk : k < 320
  · have hl : (sample e).toList.getD (k / 32) 0 = leWord (clearTop e) (k / 32) := by
      rw [List.getD_eq_getElem _ _ (by simp; omega)]; simp [sample]
    rw [hl, leWord_getLsbD _ _ _ (by omega), show 4 * (k / 32) + k % 32 / 8 = k / 8 by omega,
      show k % 32 % 8 = k % 8 by omega, clearTop]
    have h39 : k / 8 < 40 := by omega
    rw [List.getD_eq_getElem _ _ (by simp; omega), List.getD_eq_getElem _ _ (by simp; omega)]
    simp only [Vector.getElem_toList, Vector.getElem_set]
    by_cases h : 39 = k / 8
    · rw [if_pos h]
      have : k / 8 = 39 := h.symm
      simp only [← h, BitVec.getLsbD_and]
      have m : ∀ j, j < 8 → (0x3F : Byte).getLsbD j = decide (j < 6) := by decide
      rw [m _ (by omega), Bool.and_comm, decide_eq_decide.mpr (show k % 8 < 6 ↔ k < 318 by omega)]
    · rw [if_neg h, decide_eq_true (show k < 318 by omega), Bool.true_and]
  · rw [decide_eq_false (by omega), Bool.false_and, List.getD_eq_default _ _ (by simp; omega)]; simp

end Sys2Proof
end

