-- ==== Sys2Proof/Tests/Slice0.lean ====
section
/-! SUPPORT. The model's own tests: ill-formed spellings, words written out from the spec's encodings, the
vectors of spec/95_test_vectors.md (named as that file names them), single steps of its interface cases, and one
witness for the hypotheses of each statement of Certificates/Slice0/Obligations.lean. -/

-- Theorem after theorem: side by side their kernel evaluations take one thread each.
set_option Elab.async false

namespace Sys2Proof.Tests

open Sys2Proof.Machine

/-! ### Well-formedness: R84's assembly error for each suffix -/

theorem test_wf_ay_refused_sample : (⟨.sample, true, false⟩ : Asm).WellFormed = false := by decide
theorem test_wf_ay_refused_ldone : assemble ⟨.ldone, true, false⟩ = none := by decide
theorem test_wf_by_refused_toMont : (⟨.toMont, false, true⟩ : Asm).WellFormed = false := by decide
theorem test_wf_by_refused_ldzero : assemble ⟨.ldzero, false, true⟩ = none := by decide
theorem test_wf_accepts_mul_ay_by : assemble ⟨.mul, true, true⟩ = some 0x00000306 := by decide
theorem test_spelling : (Instr.toAsm (.montMul .regY .regY)).spell = "MONT_MUL.ay.by" := by decide

/-! ### Decoding: words written out from R71 and R80, every constructor -/

theorem test_decode_montMul : decode 0x00000001 = .ok (.montMul .regA .regB) ∧
    decode 0x00000101 = .ok (.montMul .regY .regB) ∧ decode 0x00000201 = .ok (.montMul .regA .regY) ∧
    decode 0x00000301 = .ok (.montMul .regY .regY) := by decide
theorem test_decode_toMont : decode 0x00000002 = .ok (.toMont .regA) ∧
    decode 0x00000102 = .ok (.toMont .regY) := by decide
theorem test_decode_fromMont : decode 0x00000003 = .ok (.fromMont .regA) ∧
    decode 0x00000103 = .ok (.fromMont .regY) := by decide
theorem test_decode_add : decode 0x00000004 = .ok (.add .regA .regB) ∧
    decode 0x00000104 = .ok (.add .regY .regB) := by decide
theorem test_decode_sub : decode 0x00000005 = .ok (.sub .regA .regB) ∧
    decode 0x00000205 = .ok (.sub .regA .regY) := by decide
/-- IF-2. -/
theorem test_decode_mul : decode 0x00000006 = .ok (.mul .regA .regB) ∧
    decode 0x00000306 = .ok (.mul .regY .regY) := by decide
theorem test_decode_pow : decode 0x00000007 = .ok (.pow .regA .regB) ∧
    decode 0x00000107 = .ok (.pow .regY .regB) := by decide
/-- IF-3. -/
theorem test_decode_inv : decode 0x00000008 = .ok (.inv .regA) ∧ decode 0x00000108 = .ok (.inv .regY) := by decide
/-- IF-4. -/
theorem test_decode_eq : decode 0x00000009 = .ok (.eq .regA .regB) ∧
    decode 0x00000209 = .ok (.eq .regA .regY) := by decide
theorem test_decode_constants : decode 0x0000000A = .ok .sample ∧ decode 0x0000000B = .ok .ldzero ∧
    decode 0x0000000C = .ok .ldone := by decide
/-- IF-7, IF-8, and the last reserved opcode. -/
theorem test_decode_reserved_opcodes : decode 0x00000000 = .error .reservedOpcode ∧
    decode 0x0000000D = .error .reservedOpcode ∧ decode 0x0000001F = .error .reservedOpcode := by decide
/-- IF-9, IF-10 and BY on a zero-operand opcode. -/
theorem test_decode_operand_not_read : decode 0x00000202 = .error .operandNotRead ∧
    decode 0x0000010A = .error .operandNotRead ∧ decode 0x0000020C = .error .operandNotRead := by decide
/-- IF-11, IF-12 and the reserved bits next to the fields. -/
theorem test_decode_reserved_bits : decode 0x00000021 = .error .reservedBits ∧
    decode 0x80000001 = .error .reservedBits ∧ decode 0x00000081 = .error .reservedBits ∧
    decode 0x00000401 = .error .reservedBits := by decide
theorem test_decodeTableWord : decodeTableWord 32 0x00000108 = some (.inv .regY) ∧
    decodeTableWord 32 0x00000000 = none ∧ decodeTableWord 40 0x0000000001 = none := by decide

/-! ### Vectors of spec/95_test_vectors.md -/

/-- X of spec/95_test_vectors.md. -/
def vX : Limbs := #v[0x89abcdef, 0x01234567, 0xdeadbeef, 0xcafebabe, 0x0badf00d, 0x12345678, 0x9abcdef0,
  0x0fedcba9, 0x87654321, 0x3fffffff]

/-- F of spec/95_test_vectors.md: 2^320 − 1. -/
def vF : Limbs := Vector.replicate 10 0xffffffff

/-- N − 1 (spec/95_test_vectors.md). -/
def vNm1 : Limbs := #v[0x948bffe0, 0xe80fd996, 0xd724a09c, 0xe8885c39, 0xcfb80639, 0x7fffffe6, 0x00000016,
  0x7ffffff1, 0x80000007, 0x7ffffffd]

/-- PR-1, PR-3, PR-5, PR-6. -/
theorem test_primitives : addInner vF Rom.one = Rom.zero ∧ subInner Rom.zero Rom.one = (vF, 0xFFFFFFFF) ∧
    select 0x00000000 Rom.n Rom.zero = Rom.n ∧ select 0xFFFFFFFF Rom.n Rom.zero = Rom.zero := by decide +kernel
/-- PR-7, PR-9, PR-10, PR-11. -/
theorem test_reducers : reduceSub Rom.n = Rom.zero ∧
    reduceSub #v[0x2917ffc1, 0xd01fb32d, 0xae494139, 0xd110b873, 0x9f700c73, 0xffffffcd, 0x0000002c, 0xffffffe2,
      0x0000000e, 0xfffffffb] = vNm1 ∧
    reduceAdd vF 0xFFFFFFFF = vNm1 ∧ reduceAdd vX 0x00000000 = vX := by decide +kernel
/-- MM-11 and MM-6. -/
theorem test_montMul : montMul vX vX = #v[0x2a5bb672, 0xe06c2073, 0xfcdf4c53, 0x12fec076, 0xdb0ba5dd, 0x89687d56,
    0xf47a792f, 0x771f9357, 0x86203421, 0x7a246e0d] ∧ montMul vX Rom.rm = vX := by decide +kernel
/-- MM-9: every outer iteration overflows in its top-limb sum. -/
theorem test_montMul_overflow : (kernel vF vF).overflow = true ∧ (kernel vF vF).value =
    #v[0x4f621866, 0xb5cd839c, 0x7d5941b0, 0xec41f993, 0xf2651899, 0x9ac322bd, 0x872381bd, 0xcc3e68b8,
      0x39622cfe, 0x3e48b907] := by decide +kernel
/-- DC-5 and DC-6. -/
theorem test_toMont : toMont vX = #v[0x20273297, 0x832779be, 0x21f8f97a, 0x20da0c68, 0xace32ea2, 0x67d2c3a6,
      0x36584ae1, 0x0933256c, 0x3b7672e1, 0x48211563] ∧
    toMont vF = #v[0x0c55c6fb, 0x702fb509, 0xedabee08, 0x3d42e146, 0x313f9199, 0xd1d7969a, 0x1574c205, 0xaadfff3f,
      0x8ca25203, 0x4aca13ac] := by decide +kernel
/-- DC-8 and DC-11. -/
theorem test_fromMont : fromMont Rom.one = #v[0x4f621868, 0xb5cd839d, 0x7d5941b1, 0xec41f994, 0xf265189a,
      0x9ac322be, 0x872381be, 0xcc3e68b9, 0x39622cff, 0x3e48b908] ∧ fromMont Rom.n = Rom.zero := by decide +kernel
/-- FA-7 and FA-8. -/
theorem test_fadd : fadd vF vF = #v[0x6b74001d, 0x17f02669, 0x28db5f63, 0x1777a3c6, 0x3047f9c6, 0x80000019,
      0xffffffe9, 0x8000000e, 0x7ffffff8, 0x80000002] ∧
    fadd vX vX = #v[0x7ecb9bfd, 0x1a36b138, 0xe636dd41, 0xad751943, 0x47a3d9e1, 0xa468ad09, 0x3579bdc9, 0x9fdb9762,
      0x8eca863a, 0x00000001] := by decide +kernel
/-- FS-5 and FS-7. -/
theorem test_fsub : fsub Rom.zero vX = #v[0x0ae031f2, 0xe6ec942f, 0xf876e1ad, 0x1d89a17a, 0xc40a162c, 0x6dcba96e,
      0x65432126, 0x70123447, 0xf89abce6, 0x3ffffffd] ∧
    fsub Rom.zero vF = #v[0x948bffe2, 0xe80fd996, 0xd724a09c, 0xe8885c39, 0xcfb80639, 0x7fffffe6, 0x00000016,
      0x7ffffff1, 0x80000007, 0x7ffffffd] := by decide +kernel
/-- FM-7 and FM-5. -/
theorem test_fmul : fmul vX vX = #v[0x5d21a16a, 0x4b32856f, 0xb862c09d, 0xdd0760a5, 0x968c8fee, 0x5502251a,
      0xb598fc2e, 0x348775d7, 0x3116a27c, 0x417484f7] ∧
    fmul Rom.one vF = #v[0xd6e8003d, 0x2fe04cd2, 0x51b6bec6, 0x2eef478c, 0x608ff38c, 0x00000032, 0xffffffd3,
      0x0000001d, 0xfffffff1, 0x00000004] := by decide +kernel
/-- EX-1, by the law of fpow: 2^10 = 0x400. -/
theorem test_fpow_two_ten : fpow (limbs 2) (limbs 10) = limbs 0x400 := by
  have h2 : val (limbs 2) = 2 := by decide +kernel
  have h10 : val (limbs 10) = 10 := by decide +kernel
  have h := (fpow_spec (limbs 2) (limbs 10) (by decide +kernel)).2
  rw [h2, h10] at h
  exact val_injective (h.trans (by decide +kernel))
/-- The exponent is read from its most significant bit: the last three bits of 6 are 1, 1, 0, and the loop over
them takes RM to the Montgomery form of 2^6 = 64. -/
theorem test_pow_loop : ((exponentBits (limbs 6)).drop 317 = [true, true, false]) ∧
    fromMont (powLoop (toMont (limbs 2)) [true, true, false] Rom.rm).value = limbs 64 := by decide +kernel
/-- EX-11, by the law of fpow: inv(ONE) = ONE. -/
theorem test_finv_one : (fpowT Rom.one Rom.nm2).value = Rom.one := by
  have h : ∀ e : Limbs, val (fpowT Rom.one e).value = 1 := by
    intro e
    rw [(fpow_spec Rom.one e one_canonical).2, val_one, one_pow]
    decide +kernel
  exact val_injective ((h Rom.nm2).trans val_one.symm)
/-- EX-14 with the law it stands for (W-4): 3 times the printed inv(3) is ONE. -/
theorem test_inverse_of_three : fmul (limbs 3) #v[0x3183fff6, 0xa2aff332, 0x9d0c3589, 0x4d82c968, 0xefe80213,
    0xd555554c, 0x5555555c, 0xd5555550, 0xd5555557, 0x2aaaaaa9] = Rom.one := by decide +kernel
/-- SM-1 and SM-4. -/
theorem test_sample : sample (Vector.ofFn fun k => BitVec.ofNat 8 k.val) = #v[0x03020100, 0x07060504, 0x0b0a0908,
      0x0f0e0d0c, 0x13121110, 0x17161514, 0x1b1a1918, 0x1f1e1d1c, 0x23222120, 0x27262524] ∧
    sample (Vector.replicate 40 0xA5) = #v[0xa5a5a5a5, 0xa5a5a5a5, 0xa5a5a5a5, 0xa5a5a5a5, 0xa5a5a5a5, 0xa5a5a5a5,
      0xa5a5a5a5, 0xa5a5a5a5, 0xa5a5a5a5, 0x25a5a5a5] := by decide +kernel
/-- EQ-3, EQ-5, EQ-6 and EQ-2. -/
theorem test_feq : feq Rom.zero (limbs (2 ^ 288)) = false ∧ feq Rom.n Rom.zero = false ∧
    feq #v[1, 1, 0, 0, 0, 0, 0, 0, 0, 0] Rom.zero = false ∧ feq vX vX = true := by decide +kernel

/-! ### Single steps -/

/-- A result that is a next state with a property. -/
def isNext (r : Machine.Result) (p : State → Bool) : Bool :=
  match r with
  | .next t => p t
  | .fault _ => false
  | .refused _ => false

/-- A result that is the fault f. -/
def isFault (r : Machine.Result) (f : Fault) : Bool :=
  match r with
  | .fault g => f == g
  | .next _ => false
  | .refused _ => false

/-- A result that is the refusal f. -/
def isRefused (r : Machine.Result) (f : Refusal) : Bool :=
  match r with
  | .refused g => f == g
  | .next _ => false
  | .fault _ => false

/-- The state after reset with these events to come. -/
def withEvents (l : List Event) : State := withInputs l State.reset

/-- The state after reset of an instance with DATA_RESET = unspecified, with these events to come. -/
def unspecified (l : List Event) : State := withInputs l (State.resetWith ⟨0, .unspecified, .wrap⟩)

/-- A command with operand sources A and B in progress: LASTCMD, LOP and LAY as acceptance leaves them. -/
def running (op : Op) (la lb : Limbs) : State :=
  { State.reset with
    status := ⟨true, false, false, false, 0⟩
    lastCmd := encodeFields op false false
    lop := op.code
    la := la
    lb := lb }

/-- An instance with TOPLIMB_OVERFLOW = any. -/
def withAny (s : State) : State := { s with params := ⟨0, .zero, .any⟩ }

/-- The window of the instance after reset stands at 0. -/
def p0 : Params := Params.atReset

/-- IF-5. -/
theorem test_accept : isNext (step (withEvents [wr p0 0x78 0x00000001])) (fun t =>
    t.status.word == 0x00000001 && t.lastCmd == 0x00000001 && t.lop == 0x01) := by decide +kernel
/-- Acceptance takes operand a from Y and operand b from B (R33). -/
theorem test_accept_sources : isNext
    (step { withEvents [wr p0 0x78 0x00000104] with a := limbs 1, b := limbs 2, y := limbs 3 })
    (fun t => t.la == limbs 3 && t.lb == limbs 2 && t.lay) := by decide +kernel
/-- IF-6. -/
theorem test_complete_montMul : isNext (step (running .montMul vX Rom.rm)) (fun t =>
    t.status.word == 0x00000002 && t.y == vX) := by decide +kernel
theorem test_complete_toMont : isNext (exec (.toMont .regA) (running .toMont Rom.one Rom.zero))
    (fun t => t.y == Rom.rm && t.status.done) := by decide +kernel
theorem test_complete_fromMont : isNext (exec (.fromMont .regA) (running .fromMont Rom.rm Rom.zero))
    (fun t => t.y == Rom.one && t.status.done) := by decide +kernel
/-- FA-2 and FS-3 as commands. -/
theorem test_complete_add : isNext (exec (.add .regA .regB) (running .add vNm1 Rom.one))
    (fun t => t.y == Rom.zero && t.status.done) := by decide +kernel
theorem test_complete_sub : isNext (exec (.sub .regA .regB) (running .sub Rom.one vNm1))
    (fun t => t.y == limbs 2 && t.status.done) := by decide +kernel
/-- FM-1 as a command; with IF-25, the operands are the latched ones. -/
theorem test_complete_mul : isNext
    (exec (.mul .regA .regB) { running .mul (limbs 2) (limbs 3) with a := limbs 7 })
    (fun t => t.y == limbs 6 && t.a == limbs 7) := by decide +kernel
/-- EX-2 as a command, by the law of fpow: pow(ZERO, ZERO) = ONE. -/
theorem test_complete_pow : ∃ y, val y = 1 ∧ exec (.pow .regA .regB) (running .pow Rom.zero Rom.zero) =
    .next (completedWith y (running .pow Rom.zero Rom.zero)) := by
  have key : ∀ s : State, s.status.busy = true → s.la = Rom.zero → s.lb = Rom.zero →
      ∃ y, val y = 1 ∧ exec (.pow .regA .regB) s = .next (completedWith y s) := by
    intro s hb ha hl
    have h := fpow_spec s.la s.lb (ha ▸ zero_canonical)
    have hv : val s.la ^ val s.lb % modulus = 1 := by
      rw [ha, hl, val_zero, pow_zero]
      decide +kernel
    exact ⟨_, h.2.trans hv, exec_busy_plain (.pow .regA .regB) s _ hb rfl nofun (.inr h.1)⟩
  exact key _ rfl rfl rfl
/-- EX-11 as a command. -/
theorem test_complete_inv : exec (.inv .regA) (running .inv Rom.one Rom.zero) =
    .next (completedWith Rom.one (running .inv Rom.one Rom.zero)) := by
  have key : ∀ s : State, s.status.busy = true → s.la = Rom.one →
      exec (.inv .regA) s = .next (completedWith Rom.one s) := by
    intro s hb ha
    have h := exec_busy_plain (.inv .regA) s (fpowT s.la Rom.nm2) hb rfl nofun
      (.inr (fpow_spec s.la Rom.nm2 (ha ▸ one_canonical)).1)
    rwa [ha, test_finv_one] at h
  exact key _ rfl rfl
/-- EQ-2 and EQ-5 as commands: Y is unchanged. -/
theorem test_complete_eq : isNext (exec (.eq .regA .regB) { running .eq vX vX with y := vF })
      (fun t => t.status.eq && t.status.done && t.y == vF) = true ∧
    isNext (exec (.eq .regA .regB) (running .eq Rom.n Rom.zero)) (fun t => !t.status.eq) = true := by decide +kernel
/-- SM-2 as a command, from the queue of supplied draws. -/
theorem test_complete_sample : isNext
    (exec .sample { running .sample Rom.zero Rom.zero with entropy := [Vector.replicate 40 0xFF] })
    (fun t => t.y == #v[0xffffffff, 0xffffffff, 0xffffffff, 0xffffffff, 0xffffffff, 0xffffffff, 0xffffffff,
      0xffffffff, 0xffffffff, 0x3fffffff] && t.entropy == []) := by decide +kernel
theorem test_complete_constants : isNext (exec .ldzero { running .ldzero vX vX with y := vF })
      (fun t => t.y == Rom.zero) = true ∧
    isNext (exec .ldone (running .ldone vX vX)) (fun t => t.y == Rom.one) = true := by decide +kernel

/-- A state that reads STATUS = 0x0000001A: DONE, ERR and ERRCODE 1. -/
def erred (l : List Event) : State := { withEvents l with status := ⟨false, true, false, true, 1⟩ }

/-- IF-7 to IF-9. -/
theorem test_illegal : isNext (step (withEvents [wr p0 0x78 0x00000000]))
      (fun t => t.status.word == 0x00000018 && t.lastCmd == 0) = true ∧
    isNext (step (withEvents [wr p0 0x78 0x00000202])) (fun t => t.status.word == 0x00000018) = true := by
  decide +kernel
/-- IF-13, IF-14: while busy a legal and an illegal word are dropped alike. -/
theorem test_while_busy : isNext (step (withInputs [wr p0 0x78 0x00000004] (running .montMul vX vX)))
      (fun t => t.status.word == 0x00000029 && t.lastCmd == 0x00000001) = true ∧
    isNext (step (withInputs [wr p0 0x78 0x00000000] (running .montMul vX vX)))
      (fun t => t.status.word == 0x00000029) = true := by decide +kernel
/-- IF-15: the first error is kept. -/
theorem test_first_error : isNext
    (step { withInputs [wr p0 0x78 0x00000004] (running .montMul vX vX) with
      status := ⟨true, false, false, true, 1⟩ }) (fun t => t.status.word == 0x00000019) := by decide +kernel
/-- IF-16, IF-17: the write to STATUS. -/
theorem test_status_write : isNext (step (erred [wr p0 0x7C 0x00000008])) (fun t => t.status.word == 0x00000002) =
      true ∧
    isNext (step (erred [wr p0 0x7C 0xFFFFFFF7])) (fun t => t.status.word == 0x0000001A) = true := by decide +kernel
/-- IF-18, IF-19, IF-20, and an access outside the window. -/
theorem test_bus_errors : isFault (step (withEvents [wr p0 0x50 1])) (.busError 0x50 32) = true ∧
    isFault (step (withEvents [.bus (.read 0x00 16)])) (.busError 0x00 16) = true ∧
    isFault (step (withEvents [.bus (.read 0x02 32)])) (.busError 0x02 32) = true ∧
    isRefused (step (withEvents [.bus (.read 0x80 32)])) (.outsideWindow 0x80) = true := by decide +kernel
/-- IF-22 and IF-21: reads of STATUS and CMD. -/
theorem test_reads : isNext (step (withEvents [rd p0 0x7C])) (fun t => t.response == .value 0) = true ∧
    isNext (step (withInputs [rd p0 0x78] (running .montMul vX vX))) (fun t => t.response == .value 1) = true := by
  decide +kernel
/-- IF-23, IF-24: UNINIT, and an operand that is not read. -/
theorem test_uninit : isFault (step (unspecified [rd p0 0x00])) (.uninit .A) = true ∧
    isFault (step (unspecified [wr p0 0x78 0x00000002])) (.uninit .A) = true ∧
    isNext (step { unspecified [wr p0 0x78 0x00000002] with aHeld := Vector.replicate 10 true })
      (fun t => t.status.busy) = true := by decide +kernel
/-- A reset abandons the command in progress (R232). -/
theorem test_reset : isNext (step (withInputs [.reset] (running .montMul vX vX)))
    (fun t => t == State.reset) := by decide +kernel
/-- A table word placed by withFetchWord is the next thing the machine runs. -/
theorem test_withFetchWord : isNext (step (State.reset.withFetchWord 32 0x0000000C))
    (fun t => t.status.busy && t.lop == 0x0C && t.inputs == []) := by decide +kernel

/-- The branch of `wait` (R86) goes back to the poll while BUSY = 1 and on when the poll read BUSY = 0. -/
theorem test_host_wait : hostStep (opStmts 0 .ldone) ⟨2, [(.t 9, 0x00000001)]⟩ State.reset =
      .next ⟨1, [(.t 9, 0x00000001)]⟩ State.reset ∧
    hostStep (opStmts 0 .ldone) ⟨2, [(.t 9, 0x00000002), (.t 9, 0x00000001)]⟩ State.reset =
      .next ⟨3, [(.t 9, 0x00000002), (.t 9, 0x00000001)]⟩ State.reset ∧
    hostStep (opStmts 0 .ldone) ⟨3, []⟩ State.reset = .ended := by decide +kernel
/-- `lda T` in P5: the first write carries what `rdy -> T` put in T[0], and T is not t0 (P2 keeps both). -/
theorem test_host_lda_temps : hostStep (ldaStmts (.temps 0)) ⟨0, [(.t 0, 6), (.limb 0 0, 0x03020100)]⟩ State.reset =
      .next ⟨1, [(.t 0, 6), (.limb 0 0, 0x03020100)]⟩ (respond .written (writeA 0 0x03020100 State.reset)) ∧
    hostStep (ldaStmts (.temps 0)) ⟨0, [(.t 0, 6)]⟩ State.reset = .unsetTemp (.limb 0 0) := by decide +kernel
/-- `rdy -> T` (R86): the second statement reads Y[1] at 0x54 into T[1] and leaves t1 alone. -/
theorem test_host_rdy_temps : hostStep (rdyStmts 0) ⟨1, [(.t 1, 6)]⟩ { State.reset with y := vX } =
    .next ⟨2, [(.limb 0 1, 0x01234567), (.t 1, 6)]⟩
      (respond (.value 0x01234567) { State.reset with y := vX }) := by decide +kernel
/-- A host's poll puts STATUS in t9 (R85). -/
theorem test_host_rd : hostStep (opStmts 0 .ldone) ⟨1, []⟩ (running .ldone vX vX) =
    .next ⟨2, [(.t 9, 0x00000001)]⟩ (respond (.value 0x00000001) (running .ldone vX vX)) := by decide +kernel

/-! ### Witnesses: states and operands that meet the hypotheses of each statement together -/

/-- BUSY = 0, with a step to a next state, to a fault, to a refusal, and to an accepted command. -/
theorem witness_ResetControlIsZeroAndLatchesAreHidden :
    State.reset.status.busy = false ∧ (∃ t, step State.reset = .next t) ∧
    (withEvents [.bus (.read 2 32)]).status.busy = false ∧
    (∃ f, step (withEvents [.bus (.read 2 32)]) = .fault f) ∧
    (withEvents [.bus (.read 128 32)]).status.busy = false ∧
    (∃ f, step (withEvents [.bus (.read 128 32)]) = .refused f) ∧
    (withEvents [wr p0 0x78 0x0000000C]).status.busy = false ∧
    (∃ t, step (withEvents [wr p0 0x78 0x0000000C]) = .next t ∧ t.status.busy = true) :=
  ⟨rfl, ⟨_, rfl⟩, rfl, ⟨_, rfl⟩, rfl, ⟨_, rfl⟩, rfl, ⟨_, rfl, rfl⟩⟩
theorem witness_ResetDataFollowsTheParameter :
    (⟨0, .zero, .wrap⟩ : Params).dataReset = .zero ∧ (⟨0, .unspecified, .wrap⟩ : Params).dataReset = .unspecified ∧
    (Instr.inv .regY).op.readsA = true ∧ (Instr.add .regA .regB).op.readsA = true := by decide
theorem witness_ResetAbandonsTheCommand :
    (withInputs [.reset] (running .mul vX vX)).inputs = [.reset] ∧
    (withInputs [.reset] (running .mul vX vX)).status.busy = true := by decide
theorem witness_IllegalWordsStartNothing :
    (withEvents [wr p0 0x78 0x0000000D]).inputs = [wr (withEvents [wr p0 0x78 0x0000000D]).params 0x78 0x0000000D] ∧
    (withEvents [wr p0 0x78 0x0000000D]).status.busy = false ∧
    decode 0x0000000D = .error .reservedOpcode := by decide
theorem witness_OperandUsageByOpcode :
    decode 0x00000301 = .ok (.montMul .regY .regY) ∧ (0x00000301 : Word).getLsbD 8 = true ∧
    (0x00000301 : Word).getLsbD 9 = true := by decide
theorem witness_AssemblyErrorsAndWords : assemble ⟨.inv, true, false⟩ = some 0x00000108 := by decide
/-- Each clause, at the first and the last register of its range. -/
theorem witness_BusReadReturnsTheMappedRegister :
    (withEvents [rd p0 0x00]).inputs = [rd (withEvents [rd p0 0x00]).params (0x00 + 4 * (0 : Fin 10).val)] ∧
    (withEvents [rd p0 0x24]).inputs = [rd (withEvents [rd p0 0x24]).params (0x00 + 4 * (9 : Fin 10).val)] ∧
    (withEvents []).aHeld[(9 : Fin 10)] = true ∧
    (withEvents [rd p0 0x28]).inputs = [rd (withEvents [rd p0 0x28]).params (0x28 + 4 * (0 : Fin 10).val)] ∧
    (withEvents [rd p0 0x4C]).inputs = [rd (withEvents [rd p0 0x4C]).params (0x28 + 4 * (9 : Fin 10).val)] ∧
    (withEvents []).bHeld[(9 : Fin 10)] = true ∧
    (withEvents [rd p0 0x50]).inputs = [rd (withEvents [rd p0 0x50]).params (0x50 + 4 * (0 : Fin 10).val)] ∧
    (withEvents [rd p0 0x74]).inputs = [rd (withEvents [rd p0 0x74]).params (0x50 + 4 * (9 : Fin 10).val)] ∧
    (withEvents []).yHeld = true ∧
    (withEvents [rd p0 0x78]).inputs = [rd (withEvents [rd p0 0x78]).params 0x78] ∧
    (withEvents [rd p0 0x7C]).inputs = [rd (withEvents [rd p0 0x7C]).params 0x7C] := by decide
theorem witness_BusWriteReachesTheMappedRegister :
    (withEvents [wr p0 0x00 1]).inputs = [wr (withEvents [wr p0 0x00 1]).params (0x00 + 4 * (0 : Fin 10).val) 1] ∧
    (withEvents [wr p0 0x24 1]).inputs = [wr (withEvents [wr p0 0x24 1]).params (0x00 + 4 * (9 : Fin 10).val) 1] ∧
    (withEvents [wr p0 0x28 1]).inputs = [wr (withEvents [wr p0 0x28 1]).params (0x28 + 4 * (0 : Fin 10).val) 1] ∧
    (withEvents [wr p0 0x4C 1]).inputs = [wr (withEvents [wr p0 0x4C 1]).params (0x28 + 4 * (9 : Fin 10).val) 1] ∧
    (withEvents [wr p0 0x7C 8]).inputs = [wr (withEvents [wr p0 0x7C 8]).params 0x7C 8] ∧
    (8 : Word).getLsbD 3 = true ∧
    (withEvents [wr p0 0x7C 0xFFFFFFF7]).inputs = [wr (withEvents [wr p0 0x7C 0xFFFFFFF7]).params 0x7C 0xFFFFFFF7] ∧
    (0xFFFFFFF7 : Word).getLsbD 3 = false := by decide
/-- The window's first and last byte and both ends of Y: the left side holds at 0x7F (alignment) and for writes at
0x50 and 0x74, and fails for writes at 0x4C and 0x78. -/
theorem witness_BusErrorAccesses :
    (withEvents [.bus (.read 0x00 8)]).params.mmBase ≤ 0x00 ∧ 0x7F < (withEvents []).params.mmBase + 0x80 ∧
    isFault (step (withEvents [.bus (.read 0x7F 32)])) (.busError 0x7F 32) = true ∧
    isFault (step (withEvents [.bus (.write 0x50 32 1)])) (.busError 0x50 32) = true ∧
    isFault (step (withEvents [.bus (.write 0x74 32 1)])) (.busError 0x74 32) = true ∧
    isNext (step (withEvents [.bus (.write 0x4C 32 1)])) (fun _ => true) = true ∧
    isNext (step (withEvents [.bus (.write 0x78 32 1)])) (fun _ => true) = true := by decide +kernel
/-- Just below and just above a window that stands at 0x80. -/
theorem witness_AccessOutsideTheWindowIsRefused :
    ({ withEvents [.bus (.read 0x7F 32)] with params := ⟨1, .zero, .wrap⟩ } : State).inputs =
      [.bus (.read 0x7F 32)] ∧
    (BusAccess.read 0x7F 32).addr < (⟨1, .zero, .wrap⟩ : Params).mmBase ∧
    (⟨1, .zero, .wrap⟩ : Params).mmBase + 0x80 ≤ (BusAccess.write 0x100 8 0).addr := by decide
theorem witness_ReadsHaveNoSideEffects :
    (withEvents [.bus (.read 0x7C 32), .bus (.read 0x7C 32)]).inputs =
      [.bus (.read 0x7C 32), .bus (.read 0x7C 32)] ∧
    ∃ t, step (withEvents [.bus (.read 0x7C 32), .bus (.read 0x7C 32)]) = .next t := ⟨rfl, _, rfl⟩
theorem witness_WrittenLimbReadsBack :
    (∃ t, step (withEvents [wr p0 0x24 5]) = .next t) ∧
    (withEvents [wr p0 0x24 5]).inputs = [wr (withEvents [wr p0 0x24 5]).params (0x00 + 4 * (9 : Fin 10).val) 5] ∧
    (∃ t, step (withEvents [wr p0 0x28 5]) = .next t) ∧
    (withEvents [wr p0 0x28 5]).inputs = [wr (withEvents [wr p0 0x28 5]).params (0x28 + 4 * (0 : Fin 10).val) 5] :=
  ⟨⟨_, rfl⟩, rfl, ⟨_, rfl⟩, rfl⟩
theorem witness_StepRunsTheDecodedCommand :
    (withEvents [wr p0 0x78 0x0A]).inputs = [wr (withEvents [wr p0 0x78 0x0A]).params 0x78 0x0A] ∧
    (withEvents [wr p0 0x78 0x0A]).status.busy = false ∧ decode 0x0A = .ok .sample ∧
    (running .ldone vX vX).status.busy = true ∧ (running .ldone vX vX).lop = Op.ldone.code ∧
    (withInputs [.core] (running .ldone vX vX)).inputs = [.core] ∧ (running .ldone vX vX).inputs = [] := by decide
/-- A command that reads both operands, from Y and from B, and one that reads none of a state that holds none. -/
theorem witness_AcceptanceLatchesTheOperands :
    (withEvents [wr p0 0x78 0x101]).inputs = [wr (withEvents [wr p0 0x78 0x101]).params 0x78 0x101] ∧
    (withEvents [wr p0 0x78 0x101]).status.busy = false ∧ decode 0x101 = .ok (.montMul .regY .regB) ∧
    OperandsHeld (.montMul .regY .regB) (withEvents [wr p0 0x78 0x101]) ∧ OperandsHeld .sample (unspecified []) :=
  ⟨rfl, rfl, rfl, ⟨fun _ => rfl, fun _ => by decide⟩, ⟨nofun, nofun⟩⟩
theorem witness_CommandWhileBusyIsDropped :
    (withInputs [wr p0 0x78 4] (running .mul vX vX)).inputs =
      [wr (withInputs [wr p0 0x78 4] (running .mul vX vX)).params 0x78 4] ∧
    (withInputs [wr p0 0x78 4] (running .mul vX vX)).status.busy = true := by decide
theorem witness_FirstErrorIsKept :
    State.reset.status.err = false ∧ (erred []).status.err = true ∧
    (erred [wr p0 0x7C 8]).inputs = [wr (erred [wr p0 0x7C 8]).params 0x7C 8] ∧
    (8 : Word).getLsbD 3 = true := by decide
theorem witness_UninitFaults :
    (unspecified [rd p0 0x24]).inputs = [rd (unspecified [rd p0 0x24]).params (0x00 + 4 * (9 : Fin 10).val)] ∧
    (unspecified []).aHeld[(9 : Fin 10)] = false ∧
    (unspecified [rd p0 0x28]).inputs = [rd (unspecified [rd p0 0x28]).params (0x28 + 4 * (0 : Fin 10).val)] ∧
    (unspecified []).bHeld[(0 : Fin 10)] = false ∧
    (unspecified [rd p0 0x50]).inputs = [rd (unspecified [rd p0 0x50]).params (0x50 + 4 * (0 : Fin 10).val)] ∧
    (unspecified []).yHeld = false ∧ (unspecified []).status.busy = false ∧
    isFault (exec (.inv .regY) (unspecified [])) (.uninit .Y) = true ∧
    isNext (exec .ldone (unspecified [])) (fun _ => true) = true := by decide +kernel
/-- The CMD write of UninitFaults' last clause: TO_MONT with no limb of A holding a value. -/
theorem witness_UninitFaults_submission :
    (unspecified [wr p0 0x78 2]).inputs = [wr (unspecified [wr p0 0x78 2]).params 0x78 2] ∧
    (unspecified [wr p0 0x78 2]).status.busy = false ∧ decode 2 = .ok (.toMont .regA) ∧
    ¬ OperandsHeld (.toMont .regA) (unspecified [wr p0 0x78 2]) :=
  ⟨rfl, rfl, rfl, fun h => absurd (h.1 rfl 0) (by decide)⟩
theorem witness_CoreIsIdleWithoutACommand :
    (withEvents [.core]).status.busy = false ∧ (withEvents [.core]).inputs = [.core] ∧
    State.reset.status.busy = false ∧ State.reset.inputs = [] := by decide

/-- The word with both sources at 0 is the operation's, and its fields are those `running` holds. -/
theorem running_word (op : Op) : decode (encodeFields op false false) = .ok (Instr.ofOp op .regA .regB) ∧
    op.code = opField (encodeFields op false false) ∧ false = ayField (encodeFields op false false) := by
  cases op <;> decide

/-- A command in progress is a legal state. -/
theorem running_legal (op : Op) (la lb : Limbs) : Legal (running op la lb) where
  busyNotDone _ := rfl
  noErrNoCode _ := rfl
  errCodeKnown := .inl rfl
  lastCmdAccepted := .inr ⟨_, (running_word op).1⟩
  latchedFromLastCmd _ := ⟨⟨_, (running_word op).1⟩, (running_word op).2⟩

theorem witness_EmptyQueueCompletesTheCommand :
    Legal (running .mul vX vX) ∧ (running .mul vX vX).status.busy = true ∧ (running .mul vX vX).inputs = [] :=
  ⟨running_legal .mul vX vX, rfl, rfl⟩
/-- Each value of LOP, with a queued draw and without one. -/
theorem witness_CompletionByOpcode : ∀ op : Op,
    (running op vX vX).status.busy = true ∧ (running op vX vX).inputs = [] ∧
    (running op vX vX).params.topLimb = .wrap ∧ (running op vX vX).lop = op.code ∧
    (running op vX vX).entropy = [] ∧
    ({ running op vX vX with entropy := [Vector.replicate 40 0] } : State).entropy = [Vector.replicate 40 0] :=
  fun _ => ⟨rfl, rfl, rfl, rfl, rfl, rfl⟩
/-- Both ways the hypothesis can hold: wrap, and any without an overflow. -/
theorem witness_KernelCommandsComplete :
    (running .montMul vF vF).status.busy = true ∧ (running .montMul vF vF).params.topLimb = .wrap ∧
    (withAny (running .montMul vX vX)).status.busy = true ∧ (kernel vX vX).overflow = false ∧
    (kernel vX Rom.r2).overflow = false ∧ (kernel vX Rom.one).overflow = false ∧ (fmulT vX vX).overflow = false ∧
    (fpowT vX vX).overflow = false ∧ (fpowT vX Rom.nm2).overflow = false :=
  ⟨rfl, rfl, rfl, by decide +kernel, by decide +kernel, by decide +kernel, by decide +kernel,
    (fpow_spec vX vX (by decide +kernel)).1, (fpow_spec vX Rom.nm2 (by decide +kernel)).1⟩
theorem witness_OverflowUnderAnyCompletesWithAFreeValue :
    (withAny (running .montMul vF vF)).status.busy = true ∧
    (withAny (running .montMul vF vF)).params.topLimb = .any ∧
    resultOf (Instr.montMul .regA .regB).op vF vF (Vector.replicate 40 0) = some (kernel vF vF) ∧
    (kernel vF vF).overflow = true := ⟨rfl, rfl, rfl, test_montMul_overflow.1⟩
theorem witness_AddSubAndConstantsComplete : (running .add vX vX).status.busy = true := rfl
theorem witness_SampleCompletes :
    (running .sample vX vX).status.busy = true ∧ (running .sample vX vX).entropy = [] ∧
    ({ running .sample vX vX with entropy := [Vector.replicate 40 0] } : State).entropy =
      [Vector.replicate 40 0] := ⟨rfl, rfl, rfl⟩
theorem witness_EqComparesRepresentations : (running .eq vX vX).status.busy = true := rfl
theorem witness_SubmittedCommandYieldsItsResult :
    (withEvents [cmd p0 (.add .regA .regY), .core]).inputs = [cmd p0 (.add .regA .regY), .core] ∧
    (withEvents [cmd p0 (.add .regA .regY), .core]).params = p0 ∧
    (withEvents [cmd p0 (.add .regA .regY), .core]).status.busy = false ∧
    OperandsHeld (.add .regA .regY) (withEvents [cmd p0 (.add .regA .regY), .core]) ∧
    (withEvents [cmd p0 (.add .regA .regY), .core]).params.topLimb = .wrap ∧
    ∃ r, resultOf (Instr.add .regA .regY).op vX vX (Vector.replicate 40 0) = some r :=
  ⟨rfl, rfl, rfl, ⟨fun _ => by decide, fun _ => rfl⟩, rfl, _, rfl⟩
theorem witness_SubmittedCommandYieldsItsResult_eq :
    (withEvents [cmd p0 (.eq .regY .regB), .core]).inputs = [cmd p0 (.eq .regY .regB), .core] ∧
    (withEvents [cmd p0 (.eq .regY .regB), .core]).params = p0 ∧
    (withEvents [cmd p0 (.eq .regY .regB), .core]).status.busy = false ∧
    OperandsHeld (.eq .regY .regB) (withEvents [cmd p0 (.eq .regY .regB), .core]) :=
  ⟨rfl, rfl, rfl, ⟨fun _ => rfl, fun _ => by decide⟩⟩
/-- A host that overwrites the operands, submits another command and polls STATUS meanwhile. -/
theorem witness_HostAccessesDoNotChangeTheResult :
    let xs : List BusAccess := [.write 0x00 32 7, .write 0x78 32 4, .read 0x7C 32]
    Legal (withInputs (xs.map Event.bus) (running .mul vX vX)) ∧
    (withInputs (xs.map Event.bus) (running .mul vX vX)).status.busy = true ∧
    isNext (run xs.length (withInputs (xs.map Event.bus) (running .mul vX vX))) (fun _ => true) = true := by
  have h := running_legal .mul vX vX
  exact ⟨⟨h.1, h.2, h.3, h.4, h.5⟩, rfl, by decide +kernel⟩
theorem witness_MontMulOfACanonicalOperand : (running .montMul vNm1 vF).status.busy = true ∧
    Canonical (running .montMul vNm1 vF).la := by decide +kernel
theorem witness_DomainRoundTrip : (running .toMont vNm1 vF).status.busy = true ∧
    Canonical (running .toMont vNm1 vF).la := by decide +kernel
theorem witness_FromMontOfACanonicalOperand : (running .fromMont vNm1 vF).status.busy = true ∧
    Canonical (running .fromMont vNm1 vF).la := by decide +kernel
/-- Both sides of the bound: N − 1 + N − 1 < 2N, and N + N = 2N. -/
theorem witness_AddReducesOnce : (running .add vNm1 vNm1).status.busy = true ∧
    val (running .add vNm1 vNm1).la + val (running .add vNm1 vNm1).lb < 2 * modulus ∧
    2 * modulus ≤ val (running .add Rom.n Rom.n).la + val (running .add Rom.n Rom.n).lb := by decide +kernel
/-- No borrow at equality, a borrow by one, and canonical operands. -/
theorem witness_SubAddsBackOnce : (running .sub vX vX).status.busy = true ∧
    val (running .sub vX vX).lb ≤ val (running .sub vX vX).la ∧
    val (running .sub Rom.zero Rom.one).la < val (running .sub Rom.zero Rom.one).lb ∧
    Canonical (running .sub Rom.zero Rom.one).la ∧ Canonical (running .sub Rom.zero Rom.one).lb := by decide +kernel
theorem witness_MulOfACanonicalOperand : (running .mul vNm1 vF).status.busy = true ∧
    Canonical (running .mul vNm1 vF).la := by decide +kernel
theorem witness_PowOfACanonicalBase : (running .pow vNm1 vF).status.busy = true ∧
    Canonical (running .pow vNm1 vF).la ∧ (running .pow vF vF).params.topLimb = .wrap := by decide +kernel
theorem witness_PowCornerCases : (running .pow vF Rom.zero).status.busy = true ∧
    (running .pow vF Rom.zero).params.topLimb = .wrap ∧ (running .pow vF Rom.zero).lb = Rom.zero ∧
    (running .pow vX Rom.one).lb = Rom.one ∧ Canonical (running .pow vX Rom.one).la ∧
    (running .pow Rom.zero Rom.one).la = Rom.zero ∧ (running .pow Rom.zero Rom.one).lb ≠ Rom.zero ∧
    (running .pow Rom.one vF).la = Rom.one := by decide +kernel
/-- Exponent N − 1 with ONE, which satisfies Fermat's identity; the exponent N, the least that is not reduced; and the
canonical Y after reset as base and exponent. -/
theorem witness_PowCornerCases_exponents : (running .pow Rom.one vNm1).status.busy = true ∧
    (running .pow Rom.one vNm1).params.topLimb = .wrap ∧ val (running .pow Rom.one vNm1).lb = modulus - 1 ∧
    Canonical (running .pow Rom.one vNm1).la ∧ (∀ k, val (running .pow Rom.one vNm1).la ^ k % modulus = 1) ∧
    modulus ≤ val (running .pow Rom.one Rom.n).lb ∧
    State.reset.status.busy = false ∧ State.reset.yHeld = true ∧ Canonical State.reset.y := by
  refine ⟨rfl, rfl, by decide +kernel, one_canonical, fun k => ?_, by decide +kernel, rfl, rfl, zero_canonical⟩
  change val Rom.one ^ k % modulus = 1
  rw [val_one, one_pow]
  decide +kernel
theorem witness_InvOfZeroIsZero : (running .inv Rom.zero vF).status.busy = true ∧
    (running .inv Rom.zero vF).la = Rom.zero := by decide
/-- ONE satisfies Fermat's identity. -/
theorem witness_InvIsThePowerNMinusTwo : (running .inv Rom.one vF).status.busy = true ∧
    Canonical (running .inv Rom.one vF).la ∧ ∀ k, val Rom.one ^ k % modulus = 1 := by
  refine ⟨rfl, one_canonical, fun k => ?_⟩
  rw [val_one, one_pow]
  decide +kernel
theorem witness_AlgebraicLaws : Canonical vNm1 ∧ Canonical vX := by decide +kernel
theorem witness_SampleRange : 2 ^ 318 - 1 < 2 ^ 318 ∧ sample (Vector.replicate 40 0xFF) =
    sample ((Vector.replicate 40 0xFF).set 39 0x3F) := by decide +kernel
theorem witness_TopLimbParameterIsIrrelevantWithinThePrecondition :
    (running .montMul vX vF).status.busy = true ∧ Canonical (running .montMul vX vF).la ∧
    (∃ t, exec (.montMul .regA .regB) (running .montMul vX vF) = .next t) ∧
    (∃ t, exec (.montMul .regA .regB) (withAny (running .montMul vX vF)) = .next t) :=
  ⟨rfl, by decide +kernel, (exec_busy_next _ _ rfl).imp fun _ h => h.1, (exec_busy_next _ _ rfl).imp fun _ h => h.1⟩
theorem witness_CompletionFrame : (running .sample vX vX).status.busy = true ∧
    (∃ t, exec .sample (running .sample vX vX) = .next t) ∧ Instr.sample.op ≠ .eq ∧
    (Instr.eq .regA .regB).op = .eq ∧ Instr.ldone.op ≠ .sample :=
  ⟨rfl, (exec_busy_next _ _ rfl).imp fun _ h => h.1, nofun, rfl, nofun⟩
theorem witness_BusAccessesLeaveTheRunningCommandAlone :
    (withInputs [wr p0 0x00 7] (running .mul vX vX)).status.busy = true ∧
    (withInputs [wr p0 0x00 7] (running .mul vX vX)).inputs = [.bus (.write 0x00 32 7)] ∧
    ∃ t, step (withInputs [wr p0 0x00 7] (running .mul vX vX)) = .next t := ⟨rfl, rfl, _, rfl⟩
/-- Steps that change Y and EQ, from queues that do not start with a reset. -/
theorem witness_OnlyCompletionsWriteYAndEq :
    (∃ t, step (running .ldone vX vX) = .next t ∧ t.y ≠ (running .ldone vX vX).y) ∧
    (∃ t, step (running .eq vX vX) = .next t ∧ t.status.eq ≠ (running .eq vX vX).status.eq) ∧
    (∀ rest, (running .ldone vX vX).inputs ≠ .reset :: rest) ∧
    (∀ rest, (running .eq vX vX).inputs ≠ .reset :: rest) :=
  ⟨⟨_, exec_busy_plain .ldone (running .ldone vX vX) _ rfl rfl nofun (.inl rfl), by decide +kernel⟩,
    ⟨_, exec_busy_eq .regA .regB (running .eq vX vX) rfl, by decide +kernel⟩, nofun, nofun⟩
theorem witness_OnlyHostWritesChangeAAndB :
    (∃ t, step (withEvents [wr p0 0x24 5]) = .next t ∧ t.a[(9 : Fin 10)] ≠ State.reset.a[(9 : Fin 10)]) ∧
    (∃ t, step (withEvents [wr p0 0x28 5]) = .next t ∧ t.b[(0 : Fin 10)] ≠ State.reset.b[(0 : Fin 10)]) ∧
    (∀ rest, (withEvents [wr p0 0x24 5]).inputs ≠ .reset :: rest) :=
  ⟨⟨_, rfl, by decide⟩, ⟨_, rfl, by decide⟩, nofun⟩
/-- A core turn of SAMPLE at an empty queue, and one at the head of the queue. -/
theorem witness_OnlySampleDrawsEntropy :
    (∃ t, step (running .sample vX vX) = .next t) ∧ (running .sample vX vX).status.busy = true ∧
    (running .sample vX vX).lop = 0x0A ∧ (running .sample vX vX).inputs = [] ∧
    (∃ t, step (withInputs [.core] (running .sample vX vX)) = .next t) ∧
    (withInputs [.core] (running .sample vX vX)).inputs = [.core] :=
  ⟨⟨_, exec_busy_sample (running .sample vX vX) rfl⟩, rfl, rfl, rfl,
    ⟨_, exec_busy_sample (withInputs [] (running .sample vX vX)) rfl⟩, rfl⟩
theorem witness_StepKeepsTheControlStateLegal :
    Legal (running .ldone vX vX) ∧ ∃ t, step (running .ldone vX vX) = .next t :=
  ⟨running_legal .ldone vX vX, _, exec_busy_plain .ldone (running .ldone vX vX) _ rfl rfl nofun (.inl rfl)⟩
theorem witness_LatchedOpcodeIsAlwaysKnown : Legal (running .mul vX vX) := running_legal .mul vX vX
theorem witness_ZeroResetNeverMeetsUninit :
    State.reset.params.dataReset = .zero ∧ AllHeld State.reset ∧ ∃ t, step State.reset = .next t :=
  ⟨rfl, ⟨by decide, by decide, rfl⟩, _, rfl⟩
theorem witness_LdaAndLdbLoadTheOperands :
    (withEvents (lda p0 vX ++ [.core])).inputs = lda (withEvents (lda p0 vX ++ [.core])).params vX ++ [.core] ∧
    (withEvents (ldb p0 vX)).inputs = ldb (withEvents (ldb p0 vX)).params vX ++ [] := by decide +kernel

theorem witness_WaitPollsUntilIdle : (opStmts 0 .ldone)[1]? = some (.rd 0x7C (.t 9)) ∧
    (opStmts 0 .ldone)[2]? = some (.bit1 (.t 9) 0 1) ∧ (⟨1, []⟩ : HostView).position = 1 := by decide

theorem witness_RdyThenLdaCopiesYToA : ({ State.reset with y := vX } : State).yHeld = true := rfl

end Sys2Proof.Tests
end

section
/-! The constants of ROM as integers (spec/10_state.md R29, R30), and their defining equations. -/

namespace Sys2Proof

/-- The limbs of N spell the prime printed in decimal in the spec (R10). -/
theorem val_n :
    val Rom.n = 1067993516717146951041484916571792702745057740581727230159139685185762082554198619328292418486241 := by
  decide +kernel

theorem val_r2 : val Rom.r2 = (2 ^ 320) ^ 2 % val Rom.n := by decide +kernel

theorem val_nm2 : val Rom.nm2 = val Rom.n - 2 := by decide +kernel

theorem val_rm : val Rom.rm = 2 ^ 320 % val Rom.n := by decide +kernel

namespace Machine

/-- Settles O4: each constant is a literal limb vector, and its integer value is computed once, by its own lemma;
`n0i_spec` reads N[0] as the head of N's list of limbs. -/
theorem romConstantsMeetTheirDefinitions : Obligations.RomConstantsMeetTheirDefinitions :=
  ⟨val_n, val_r2, n0i_spec, val_zero, val_one, val_nm2, val_rm⟩

end Machine
end Sys2Proof
end

section
/-! The effect of a step, as one whole-state case each (spec/60_exceptions.md R200 to R206, spec/20_memory.md R51,
R59): the cases of a core turn, a bus access and a submission put together, so that a claim about every step is a
case split over `StepEffect`. -/

namespace Sys2Proof.Machine

/-- Acceptance latches `encode i`, which is the word that was decoded: the fields make up the word (R71). -/
theorem encode_of_decode {w : Word} {i : Instr} (h : decode w = .ok i) : encode i = w := by
  obtain ⟨hrsv0, hrsv1, hop, hay, hby⟩ := decode_fields h
  rw [encode, encodeFields, ← hop, ← hay, ← hby, word_of_fields w hrsv0 hrsv1]

/-- The step is a turn of the core, after which `rest` is queued: the turn stands in the queue, or the queue is
empty (R201, log 7). -/
def IsCoreTurn (s : State) (rest : List Event) : Prop :=
  s.inputs = .core :: rest ∨ (s.inputs = [] ∧ rest = [])

/-- The state `t` that a step from `s` can answer, one constructor for each kind of step, with the guards it has. -/
inductive StepEffect (s : State) : State → Prop
  /-- The block is reset (R232). -/
  | reset (rest : List Event) (hin : s.inputs = .reset :: rest) : StepEffect s (resetBlock (withInputs rest s))
  /-- No command is in progress, and the core's turn passes (R201). -/
  | idle (rest : List Event) (hin : IsCoreTurn s rest) (hbusy : s.status.busy = false) :
      StepEffect s (withInputs rest s)
  /-- EQ completes (R186). -/
  | completeEq (rest : List Event) (hin : IsCoreTurn s rest) (hbusy : s.status.busy = true)
      (hlop : s.lop = Op.eq.code) : StepEffect s (completeEq (feq s.la s.lb) (withInputs rest s))
  /-- A command that writes Y completes (R202). -/
  | completeY (rest : List Event) (op : Op) (r : Tracked) (hin : IsCoreTurn s rest)
      (hbusy : s.status.busy = true) (hop : op ≠ .eq) (hlop : s.lop = op.code)
      (hresult : resultOf op s.la s.lb (entropyDraw s) = some r) :
      StepEffect s (completeY r (beforeResult op (withInputs rest s)))
  /-- The host reads a register, with the value as the answer (R53). -/
  | read (rest : List Event) (addr : Nat) (v : Word) (hin : s.inputs = .bus (.read addr 32) :: rest) :
      StepEffect s (respond (.value v) (withInputs rest s))
  /-- The host writes a limb of A (R21). -/
  | writeA (rest : List Event) (k : Fin 10) (v : Word) (hin : s.inputs = wr s.params (0x00 + 4 * k.val) v :: rest) :
      StepEffect s (respond .written (writeA k v (withInputs rest s)))
  /-- The host writes a limb of B (R22). -/
  | writeB (rest : List Event) (k : Fin 10) (v : Word) (hin : s.inputs = wr s.params (0x28 + 4 * k.val) v :: rest) :
      StepEffect s (respond .written (writeB k v (withInputs rest s)))
  /-- The host writes STATUS, which may clear the error (R26). -/
  | writeStatus (rest : List Event) (v : Word) (hin : s.inputs = wr s.params 0x7C v :: rest) :
      StepEffect s (respond .written (writeStatus v (withInputs rest s)))
  /-- A CMD write is dropped while BUSY = 1 (R206). -/
  | commandWhileBusy (rest : List Event) (w : Word) (hin : s.inputs = wr s.params 0x78 w :: rest)
      (hbusy : s.status.busy = true) :
      StepEffect s (raiseError codeCmdWhileBusy (respond .written (withInputs rest s)))
  /-- A CMD write of no command (R204). -/
  | illegalCommand (rest : List Event) (w : Word) (e : DecodeReject) (hin : s.inputs = wr s.params 0x78 w :: rest)
      (hbusy : s.status.busy = false) (hdecode : decode w = .error e) :
      StepEffect s (raiseError codeIllegalCmd (respond .written (withInputs rest s)))
  /-- A CMD write is accepted (R200). -/
  | accepted (rest : List Event) (w : Word) (i : Instr) (hin : s.inputs = wr s.params 0x78 w :: rest)
      (hbusy : s.status.busy = false) (hdecode : decode w = .ok i) (hheld : OperandsHeld i s) :
      StepEffect s (latch w (respond .written (withInputs rest s)))

theorem stepEffect_of_coreTurn {s t : State} {rest : List Event} (hin : IsCoreTurn s rest)
    (h : coreTurn (withInputs rest s) = .next t) : StepEffect s t := by
  rcases coreTurn_cases h with ⟨hbusy, rfl⟩ | ⟨hbusy, hlop, rfl⟩ | ⟨hbusy, op, r, hop, hlop, hresult, rfl⟩
  · exact .idle rest hin hbusy
  · exact .completeEq rest hin hbusy hlop
  · exact .completeY rest op r hin hbusy hop hlop hresult

theorem stepEffect_of_submit {s t : State} {rest : List Event} {w : Word}
    (hin : s.inputs = wr s.params 0x78 w :: rest) (h : submit w (respond .written (withInputs rest s)) = .next t) :
    StepEffect s t := by
  rcases submit_cases h with ⟨hbusy, rfl⟩ | ⟨hbusy, ⟨e, hdecode⟩, rfl⟩ | ⟨hbusy, i, hdecode, hheld, rfl⟩
  · exact .commandWhileBusy rest w hin hbusy
  · exact .illegalCommand rest w e hin hbusy hdecode
  · rw [encode_of_decode hdecode]
    exact .accepted rest w i hin hbusy hdecode hheld

/-- Every step that answers a next state has one of the effects. -/
theorem stepEffect_of_step {s t : State} (h : step s = .next t) : StepEffect s t := by
  rcases step_cases h with ⟨hin, h⟩ | ⟨rest, hin, h⟩ | ⟨rest, hin, rfl⟩ | ⟨x, rest, hin, h⟩
  · refine stepEffect_of_coreTurn (rest := []) (.inr ⟨hin, rfl⟩) ?_
    rwa [← hin]
  · exact stepEffect_of_coreTurn (.inl hin) h
  · exact .reset rest hin
  · rcases busAccess_cases h with ⟨addr, v, rfl, rfl⟩ | ⟨k, v, rfl, rfl⟩ | ⟨k, v, rfl, rfl⟩ | ⟨w, rfl, hsubmit⟩ |
      ⟨v, rfl, rfl⟩
    · exact .read rest addr v hin
    · exact .writeA rest k v hin
    · exact .writeB rest k v hin
    · exact stepEffect_of_submit hin hsubmit
    · exact .writeStatus rest v hin

section beforeResult
variable (op : Op) (s : State)
@[simp] theorem beforeResult_a : (beforeResult op s).a = s.a := by rw [beforeResult_eq]
@[simp] theorem beforeResult_b : (beforeResult op s).b = s.b := by rw [beforeResult_eq]
@[simp] theorem beforeResult_lastCmd : (beforeResult op s).lastCmd = s.lastCmd := by rw [beforeResult_eq]
@[simp] theorem beforeResult_status : (beforeResult op s).status = s.status := by rw [beforeResult_eq]
@[simp] theorem beforeResult_lop : (beforeResult op s).lop = s.lop := by rw [beforeResult_eq]
@[simp] theorem beforeResult_lay : (beforeResult op s).lay = s.lay := by rw [beforeResult_eq]
end beforeResult

end Sys2Proof.Machine
end

section
/-! The legal control state (spec/10_state.md R25, R26, R32; spec/60_exceptions.md R202, R210) is kept by every
step: the operations on STATUS keep its three clauses, and acceptance alone writes LASTCMD and the latches. -/

namespace Sys2Proof.Machine

/-- The clauses of Legal that speak of STATUS alone (R26, R32, R210). -/
structure LegalStatus (st : Status) : Prop where
  busyNotDone : st.busy = true → st.done = false
  noErrNoCode : st.err = false → st.errCode = 0
  errCodeKnown : st.errCode = 0 ∨ st.errCode = 1 ∨ st.errCode = 2

theorem Legal.legalStatus {s : State} (h : Legal s) : LegalStatus s.status :=
  ⟨h.busyNotDone, h.noErrNoCode, h.errCodeKnown⟩

theorem LegalStatus.accept {st : Status} (h : LegalStatus st) : LegalStatus st.accept :=
  ⟨fun _ => rfl, h.noErrNoCode, h.errCodeKnown⟩

theorem LegalStatus.complete {st : Status} (h : LegalStatus st) : LegalStatus st.complete :=
  ⟨nofun, h.noErrNoCode, h.errCodeKnown⟩

theorem LegalStatus.setEq {st : Status} (h : LegalStatus st) (v : Bool) : LegalStatus (st.setEq v) :=
  ⟨h.busyNotDone, h.noErrNoCode, h.errCodeKnown⟩

theorem LegalStatus.raise {st : Status} (h : LegalStatus st) {code : BitVec 4} (hcode : code = 1 ∨ code = 2) :
    LegalStatus (st.raise code) := by
  unfold Status.raise
  split
  · exact h
  · exact ⟨h.busyNotDone, nofun, .inr hcode⟩

theorem LegalStatus.hostWrite {st : Status} (h : LegalStatus st) (v : Word) : LegalStatus (st.hostWrite v) := by
  unfold Status.hostWrite
  split
  · exact ⟨h.busyNotDone, fun _ => rfl, .inl rfl⟩
  · exact h

/-- Legal is kept where LASTCMD and the latches stay, STATUS is legal and no command is begun. -/
theorem Legal.of_same_command {s t : State} (h : Legal s) (hstatus : LegalStatus t.status)
    (hbusy : t.status.busy = true → s.status.busy = true) (hlast : t.lastCmd = s.lastCmd) (hlop : t.lop = s.lop)
    (hlay : t.lay = s.lay) : Legal t where
  busyNotDone := hstatus.busyNotDone
  noErrNoCode := hstatus.noErrNoCode
  errCodeKnown := hstatus.errCodeKnown
  lastCmdAccepted := by rw [hlast]; exact h.lastCmdAccepted
  latchedFromLastCmd hb := by rw [hlast, hlop, hlay]; exact h.latchedFromLastCmd (hbusy hb)

/-- The acceptance of a command word makes LASTCMD, LOP and LAY agree (R33). -/
theorem legal_latch {s : State} {w : Word} {i : Instr} (hstatus : LegalStatus s.status) (hdecode : decode w = .ok i) :
    Legal (latch w s) where
  busyNotDone := hstatus.accept.busyNotDone
  noErrNoCode := hstatus.accept.noErrNoCode
  errCodeKnown := hstatus.accept.errCodeKnown
  lastCmdAccepted := .inr ⟨i, hdecode⟩
  latchedFromLastCmd _ := ⟨⟨i, hdecode⟩, rfl, rfl⟩

/-- The control state after reset is legal (R231). -/
theorem legal_resetWith (p : Params) : Legal (State.resetWith p) where
  busyNotDone := nofun
  noErrNoCode _ := rfl
  errCodeKnown := .inl rfl
  lastCmdAccepted := .inl rfl
  latchedFromLastCmd := nofun

theorem legal_resetBlock (s : State) : Legal (resetBlock s) :=
  (legal_resetWith s.params).of_same_command (legal_resetWith s.params).legalStatus id rfl rfl rfl

theorem StepEffect.legal {s t : State} (h : Legal s) (he : StepEffect s t) : Legal t := by
  have hstatus := h.legalStatus
  cases he with
  | reset => exact legal_resetBlock _
  | accepted _ _ _ _ _ hdecode => exact legal_latch hstatus hdecode
  | completeEq => exact h.of_same_command (hstatus.setEq _).complete nofun rfl rfl rfl
  | completeY =>
    exact h.of_same_command (by simpa using hstatus.complete) nofun (by simp) (by simp) (by simp)
  | writeStatus _ v => exact h.of_same_command (hstatus.hostWrite v) (by simp) rfl rfl rfl
  | commandWhileBusy => exact h.of_same_command (hstatus.raise (.inr rfl)) (by simp) rfl rfl rfl
  | illegalCommand => exact h.of_same_command (hstatus.raise (.inl rfl)) (by simp) rfl rfl rfl
  | idle | read | writeA | writeB => exact h.of_same_command hstatus id rfl rfl rfl

/-- Settles O53, by cases on the effect of the step. -/
theorem stepKeepsTheControlStateLegal : Obligations.StepKeepsTheControlStateLegal :=
  fun _ _ h hstep => (stepEffect_of_step hstep).legal h

end Sys2Proof.Machine
end

section
/-! Who writes which register: acceptance and its latches (spec/10_state.md R33), completions for Y and STATUS.EQ
(R23, R28), and the host for A and B (R21, R22). -/

namespace Sys2Proof.Machine

/-- A legal word submitted while BUSY = 0 is latched, where its operands hold values (R200, R33). -/
theorem submit_accepted {w : Word} {i : Instr} {s : State} (hbusy : s.status.busy = false)
    (hdecode : decode w = .ok i) (hheld : OperandsHeld i s) : submit w s = .next (latch w s) := by
  simp only [submit, hbusy, hdecode, Bool.false_eq_true, if_false]
  rw [exec_idle i s hbusy, accept_held i s hheld, encode_of_decode hdecode]

/-- Settles O19: the write is a submission, and with BUSY = 0 and the operands held it latches the word itself. -/
theorem acceptanceLatchesTheOperands : Obligations.AcceptanceLatchesTheOperands := by
  intro s rest w i hin hbusy hdecode hheld
  rw [step_submit s rest w hin]
  exact submit_accepted hbusy hdecode hheld

/-- Settles O49, by cases on the effect of the step: only the two completions change Y or EQ, and their opcodes
tell them apart. -/
theorem onlyCompletionsWriteYAndEq : Obligations.OnlyCompletionsWriteYAndEq := by
  intro s t hstep hreset
  cases stepEffect_of_step hstep with
  | reset rest hin => exact absurd hin (hreset rest)
  | completeEq _ _ hbusy hlop => exact ⟨fun hy => absurd rfl hy, fun _ => ⟨hbusy, hlop, rfl, rfl⟩⟩
  | completeY _ op _ _ hbusy hop hlop =>
    have hne : s.lop ≠ Op.eq.code := fun h => hop (code_injective (hlop.symm.trans h))
    exact ⟨fun _ => ⟨hbusy, hne, rfl, rfl⟩, fun heq => absurd (by simp) heq⟩
  | idle | read | writeA | writeB | writeStatus | commandWhileBusy | illegalCommand | accepted =>
    exact ⟨fun hy => absurd rfl hy, fun heq => absurd (by simp) heq⟩

/-- A limb that a write to limb j has changed is limb j, and holds the value written. -/
theorem eq_of_set_getElem_ne {x : Limbs} {j k : Fin 10} {v : Word} (h : (x.set j v)[k] ≠ x[k]) :
    k = j ∧ (x.set j v)[k] = v := by
  by_cases hjk : j = k
  · subst hjk
    exact ⟨rfl, by simp⟩
  · refine absurd ?_ h
    simpa using Vector.getElem_set_ne j.isLt k.isLt (fun hval => hjk (Fin.ext hval))

/-- Settles O50, by cases on the effect of the step: only the host's write to A changes A, only its write to B
changes B, and either changes no limb but its own. -/
theorem onlyHostWritesChangeAAndB : Obligations.OnlyHostWritesChangeAAndB := by
  intro s t k hstep hreset
  cases stepEffect_of_step hstep with
  | reset rest hin => exact absurd hin (hreset rest)
  | writeA rest j v hin =>
    refine ⟨fun ha => ?_, fun hb => absurd rfl hb⟩
    obtain ⟨rfl, hv⟩ := eq_of_set_getElem_ne ha
    exact ⟨v, rest, hin, hv⟩
  | writeB rest j v hin =>
    refine ⟨fun ha => absurd rfl ha, fun hb => ?_⟩
    obtain ⟨rfl, hv⟩ := eq_of_set_getElem_ne hb
    exact ⟨v, rest, hin, hv⟩
  | idle | completeEq | completeY | read | writeStatus | commandWhileBusy | illegalCommand | accepted =>
    exact ⟨fun ha => absurd (by simp) ha, fun hb => absurd (by simp) hb⟩

end Sys2Proof.Machine
end

section
/-! The STATUS word bit by bit (spec/10_state.md R26). -/

namespace Sys2Proof.Machine

/-- A flag of STATUS is placed as a bit of a command word is. -/
theorem flagAt_getLsbD (n k : Nat) (v : Bool) (hk : k < 32) : (flagAt n v).getLsbD k = (v && decide (k = n)) :=
  bitAt_getLsbD n k v hk

/-- Bit k of STATUS: a flag below bit 4, and bit k - 4 of ERRCODE from there on, which is 0 past bit 7 (R26). -/
theorem Status.word_getLsbD (st : Status) (k : Nat) (hk : k < 32) :
    st.word.getLsbD k = (st.busy && decide (k = 0) || st.done && decide (k = 1) || st.eq && decide (k = 2) ||
      st.err && decide (k = 3) || decide (4 ≤ k) && st.errCode.getLsbD (k - 4)) := by
  have hshift : (st.errCode.setWidth 32 <<< 4).getLsbD k = (decide (4 ≤ k) && st.errCode.getLsbD (k - 4)) := by
    have hge : (!decide (k < 4)) = decide (4 ≤ k) := by rw [← decide_not, decide_eq_decide, Nat.not_lt]
    simp [hk, hge]
  simp only [Status.word, BitVec.getLsbD_or, flagAt_getLsbD _ _ _ hk, hshift]

/-- Settles O13, each field read off the bits of the word. -/
theorem statusWordLayout : Obligations.StatusWordLayout := by
  intro st
  refine ⟨?_, ?_, ?_, ?_, ?_, ?_⟩
  · simpa using st.word_getLsbD 0 (by omega)
  · simpa using st.word_getLsbD 1 (by omega)
  · simpa using st.word_getLsbD 2 (by omega)
  · simpa using st.word_getLsbD 3 (by omega)
  · apply BitVec.eq_of_getLsbD_eq
    intro j hj
    have hflags : 4 + j ≠ 0 ∧ 4 + j ≠ 1 ∧ 4 + j ≠ 2 ∧ 4 + j ≠ 3 := by omega
    simp [hj, st.word_getLsbD (4 + j) (by omega), hflags]
  · apply BitVec.eq_of_getLsbD_eq
    intro j hj
    have hflags : 8 + j ≠ 0 ∧ 8 + j ≠ 1 ∧ 8 + j ≠ 2 ∧ 8 + j ≠ 3 := by omega
    have hcode : st.errCode.getLsbD (8 + j - 4) = false := BitVec.getLsbD_of_ge _ _ (by omega)
    simp [hj, st.word_getLsbD (8 + j) (by omega), hflags, hcode]

end Sys2Proof.Machine
end

section
/-! The register window (spec/20_memory.md R50 to R53): what a read answers, what a write reaches, and which
accesses stop; each access is one equation of `step`. -/

namespace Sys2Proof.Machine

/-- The step of a queued access (R59). -/
theorem step_bus {s : State} {rest : List Event} {x : BusAccess} (hin : s.inputs = .bus x :: rest) :
    step s = busAccess x (withInputs rest s) := by
  simp only [step, hin, runEvent]

/-! ### Outside the window -/

theorem inWindow_eq_false_iff {p : Params} {addr : Nat} :
    inWindow p addr = false ↔ addr < p.mmBase ∨ p.mmBase + 0x80 ≤ addr := by
  simp only [inWindow, Bool.and_eq_false_iff, decide_eq_false_iff_not, Nat.not_le, Nat.not_lt]

theorem busAccess_outside {x : BusAccess} {s : State} (h : inWindow s.params x.addr = false) :
    busAccess x s = .refused (.outsideWindow x.addr) := by
  simp only [busAccess, h, Bool.not_false, if_true]

/-- Settles O15: the window is checked before the width and the alignment of the access. -/
theorem accessOutsideTheWindowIsRefused : Obligations.AccessOutsideTheWindowIsRefused := by
  intro s rest x hin hout
  rw [step_bus hin]
  exact busAccess_outside (inWindow_eq_false_iff.mpr hout)

/-! ### Reads -/

@[simp] theorem readLimb_true (reg : DataReg) (w : Word) : readLimb reg true w = .ok w := rfl

theorem readReg_a_held {s : State} {k : Fin 10} (h : s.aHeld[k] = true) : readReg (.a k) s = .ok s.a[k] := by
  rw [readReg, h, readLimb_true]

theorem readReg_b_held {s : State} {k : Fin 10} (h : s.bHeld[k] = true) : readReg (.b k) s = .ok s.b[k] := by
  rw [readReg, h, readLimb_true]

theorem readReg_y_held {s : State} (k : Fin 10) (h : s.yHeld = true) : readReg (.y k) s = .ok s.y[k] := by
  rw [readReg, h, readLimb_true]

/-- What a register reads as does not depend on the events to come. -/
@[simp] theorem readReg_withInputs (r : WindowReg) (l : List Event) (s : State) :
    readReg r (withInputs l s) = readReg r s := by
  cases r <;> rfl

/-- What a register reads as does not depend on the last answer. -/
@[simp] theorem readReg_respond (r : WindowReg) (x : BusResponse) (s : State) :
    readReg r (respond x s) = readReg r s := by
  cases r <;> rfl

/-- An aligned 32-bit read answers with the value of the register at its offset, where that holds one (R51, R52). -/
theorem step_rd_ok {s : State} {rest : List Event} {o : Nat} {r : WindowReg} {v : Word}
    (hin : s.inputs = rd s.params o :: rest) (hlt : o < 0x80) (hmod : o % 4 = 0) (hreg : windowReg o = r)
    (hv : readReg r s = .ok v) : step s = .next (respond (.value v) (withInputs rest s)) := by
  rw [step_rd s rest o hin hlt hmod, hreg, readAccess, readReg_withInputs, hv]

/-- Settles O11: the register at each offset is found by its `windowReg` lemma. -/
theorem busReadReturnsTheMappedRegister : Obligations.BusReadReturnsTheMappedRegister := by
  intro s rest
  refine ⟨fun k hin hheld => ?_, fun k hin hheld => ?_, fun k hin hheld => ?_, fun hin => ?_, fun hin => ?_⟩
  · exact step_rd_ok hin (by omega) (by omega) (windowReg_a k) (readReg_a_held hheld)
  · exact step_rd_ok hin (by omega) (by omega) (windowReg_b k) (readReg_b_held hheld)
  · exact step_rd_ok hin (by omega) (by omega) (windowReg_y k) (readReg_y_held k hheld)
  · exact step_rd_ok hin (by omega) (by omega) windowReg_cmd rfl
  · exact step_rd_ok hin (by omega) (by omega) windowReg_status rfl

/-- Settles O16: the guards of a read and the value it answers are unmoved by its own effect, so they hold again. -/
theorem readsHaveNoSideEffects : Obligations.ReadsHaveNoSideEffects := by
  intro s t rest addr width hin hstep
  rw [step_bus hin] at hstep
  obtain ⟨hwin, hallowed, v, hv, rfl⟩ := busAccess_read_iff.mp hstep
  refine ⟨v, rfl, ?_⟩
  rw [step_bus (rest := rest) rfl]
  exact busAccess_read_iff.mpr ⟨hwin, hallowed, v, by simpa using hv, rfl⟩

/-! ### Writes -/

/-- An aligned 32-bit write reaches A[k] at offset 4k (R51). -/
theorem step_writeA {s : State} {rest : List Event} {k : Fin 10} {v : Word}
    (hin : s.inputs = wr s.params (0x00 + 4 * k.val) v :: rest) :
    step s = .next (respond .written (writeA k v (withInputs rest s))) := by
  rw [step_wr s rest _ v hin (by omega) (by omega), windowReg_a, writeAccess]

/-- An aligned 32-bit write reaches B[k] at offset 0x28 + 4k (R51). -/
theorem step_writeB {s : State} {rest : List Event} {k : Fin 10} {v : Word}
    (hin : s.inputs = wr s.params (0x28 + 4 * k.val) v :: rest) :
    step s = .next (respond .written (writeB k v (withInputs rest s))) := by
  rw [step_wr s rest _ v hin (by omega) (by omega), windowReg_b, writeAccess]

/-- An aligned 32-bit write reaches STATUS at offset 0x7C (R51). -/
theorem step_writeStatus {s : State} {rest : List Event} {v : Word} (hin : s.inputs = wr s.params 0x7C v :: rest) :
    step s = .next (respond .written (writeStatus v (withInputs rest s))) := by
  rw [step_wr s rest _ v hin (by omega) (by omega), windowReg_status, writeAccess]

theorem writeStatus_of_bit3 {v : Word} (h : v.getLsbD 3 = true) (s : State) :
    writeStatus v s = { s with status := { s.status with err := false, errCode := 0 } } := by
  rw [writeStatus, Status.hostWrite, if_pos h]

theorem writeStatus_of_not_bit3 {v : Word} (h : v.getLsbD 3 = false) (s : State) : writeStatus v s = s := by
  rw [writeStatus, Status.hostWrite, h, if_neg Bool.false_ne_true]

/-- Settles O12: one equation of `step` for each register, and for STATUS the two values of bit 3. -/
theorem busWriteReachesTheMappedRegister : Obligations.BusWriteReachesTheMappedRegister := by
  intro s rest v
  refine ⟨fun k hin => step_writeA hin, fun k hin => step_writeB hin, fun hin => ⟨fun hset => ?_, fun hclear => ?_⟩⟩
  · rw [step_writeStatus hin, writeStatus_of_bit3 hset]
    rfl
  · rw [step_writeStatus hin, writeStatus_of_not_bit3 hclear]
    rfl

/-! ### A read after a write -/

theorem readReg_writeA_same (k : Fin 10) (v : Word) (s : State) : readReg (.a k) (writeA k v s) = .ok v := by
  rw [readReg_a_held] <;> simp

theorem readReg_writeB_same (k : Fin 10) (v : Word) (s : State) : readReg (.b k) (writeB k v s) = .ok v := by
  rw [readReg_b_held] <;> simp

/-- A write to limb k leaves every other limb, and every other limb's mark, as it was. -/
theorem set_getElem_fin_ne {α : Type} {x : Vector α 10} {j k : Fin 10} {v : α} (h : j ≠ k) :
    (x.set k v)[j] = x[j] :=
  Vector.getElem_set_ne k.isLt j.isLt (fun hval => h (Fin.ext hval.symm))

theorem readReg_writeA_ne {r : WindowReg} {k : Fin 10} (h : r ≠ .a k) (v : Word) (s : State) :
    readReg r (writeA k v s) = readReg r s := by
  cases r with
  | a j =>
    have hj : j ≠ k := fun hjk => h (congrArg WindowReg.a hjk)
    simp only [readReg, writeA_a, writeA_aHeld, set_getElem_fin_ne hj]
  | b | y | cmd | status => rfl

theorem readReg_writeB_ne {r : WindowReg} {k : Fin 10} (h : r ≠ .b k) (v : Word) (s : State) :
    readReg r (writeB k v s) = readReg r s := by
  cases r with
  | b j =>
    have hj : j ≠ k := fun hjk => h (congrArg WindowReg.b hjk)
    simp only [readReg, writeB_b, writeB_bHeld, set_getElem_fin_ne hj]
  | a | y | cmd | status => rfl

/-- Settles O17: the next state is the written one, and its registers read by the rules above. -/
theorem writtenLimbReadsBack : Obligations.WrittenLimbReadsBack := by
  intro s t rest k v hstep
  refine ⟨fun hin => ?_, fun hin => ?_⟩
  · obtain rfl := Host.Outcome.next.inj ((step_writeA hin).symm.trans hstep)
    exact ⟨by simp [readReg_writeA_same], fun r hr => by simp [readReg_writeA_ne hr]⟩
  · obtain rfl := Host.Outcome.next.inj ((step_writeB hin).symm.trans hstep)
    exact ⟨by simp [readReg_writeB_same], fun r hr => by simp [readReg_writeB_ne hr]⟩

/-! ### Accesses while a command is in progress -/

/-- While BUSY = 1 a submission is dropped with CMD_WHILE_BUSY, whatever its word is (R206). -/
theorem submit_busy {s : State} (w : Word) (hbusy : s.status.busy = true) :
    submit w s = .next (raiseError codeCmdWhileBusy s) := by
  rw [submit, if_pos hbusy]

/-- Settles O48, by cases on the access: with BUSY = 1 a write to CMD only raises an error, and no other access
reaches a register of the running command. -/
theorem busAccessesLeaveTheRunningCommandAlone : Obligations.BusAccessesLeaveTheRunningCommandAlone := by
  intro s t x rest hbusy hin hstep
  rw [step_bus hin] at hstep
  rcases busAccess_cases hstep with ⟨_, _, _, rfl⟩ | ⟨_, _, _, rfl⟩ | ⟨_, _, _, rfl⟩ | ⟨w, _, hsubmit⟩ | ⟨_, _, rfl⟩
  · simp [hbusy]
  · simp [hbusy]
  · simp [hbusy]
  · obtain rfl := Host.Outcome.next.inj ((submit_busy w (by simpa using hbusy)).symm.trans hsubmit)
    simp [hbusy]
  · simp [hbusy]

end Sys2Proof.Machine
end

section
/-! Command words and commands (spec/30_encoding.md R71, R73, R80 to R84): the fields of an encoded word, the decoder
on it, and from these the round trip, the match and mask table, the illegal words and the assembler. -/

namespace Sys2Proof.Machine

/-! ### The fields of an encoded word -/

/-- Bit k of an encoded word: OP in bits 4:0, AY at bit 8, BY at bit 9, every other bit 0 (R71). -/
theorem encodeFields_getLsbD (op : Op) (ay by' : Bool) {k : Nat} (hk : k < 32) :
    (encodeFields op ay by').getLsbD k =
      (op.code.getLsbD k || (ay && decide (k = 8)) || (by' && decide (k = 9))) := by
  simp only [encodeFields, BitVec.getLsbD_or, bitAt_getLsbD _ _ _ hk, BitVec.getLsbD_setWidth, hk, decide_true,
    Bool.true_and]

section encodedFields
variable (op : Op) (ay by' : Bool)

@[simp] theorem opField_encodeFields : opField (encodeFields op ay by') = op.code := by
  apply BitVec.eq_of_getLsbD_eq
  intro j hj
  have hplace : j ≠ 8 ∧ j ≠ 9 := by omega
  simp [opField, hj, encodeFields_getLsbD op ay by' (show j < 32 by omega), hplace]

@[simp] theorem rsv0Field_encodeFields : rsv0Field (encodeFields op ay by') = 0 := by
  apply BitVec.eq_of_getLsbD_eq
  intro j hj
  have hplace : 5 + j ≠ 8 ∧ 5 + j ≠ 9 := by omega
  simp [rsv0Field, hj, encodeFields_getLsbD op ay by' (show 5 + j < 32 by omega), hplace]

@[simp] theorem rsv1Field_encodeFields : rsv1Field (encodeFields op ay by') = 0 := by
  apply BitVec.eq_of_getLsbD_eq
  intro j hj
  have hplace : 10 + j ≠ 8 ∧ 10 + j ≠ 9 := by omega
  have hcode : op.code.getLsbD (10 + j) = false := BitVec.getLsbD_of_ge _ _ (by omega)
  simp [rsv1Field, hj, encodeFields_getLsbD op ay by' (show 10 + j < 32 by omega), hplace, hcode]

@[simp] theorem ayField_encodeFields : ayField (encodeFields op ay by') = ay := by
  rw [ayField, encodeFields_getLsbD _ _ _ (by omega)]
  simp

@[simp] theorem byField_encodeFields : byField (encodeFields op ay by') = by' := by
  rw [byField, encodeFields_getLsbD _ _ _ (by omega)]
  simp

end encodedFields

/-! ### Decoding by operation -/

/-- The command of an operation and its AY and BY bits. -/
def instrOfBits (op : Op) (ay by' : Bool) : Instr := Instr.ofOp op (SrcA.ofBit ay) (SrcB.ofBit by')

@[simp] theorem ofBit_bitA (a : SrcA) : SrcA.ofBit a.bit = a := by cases a <;> rfl
@[simp] theorem ofBit_bitB (b : SrcB) : SrcB.ofBit b.bit = b := by cases b <;> rfl

/-- A command is the one its own operation and bits name. -/
theorem instrOfBits_of_instr (i : Instr) : instrOfBits i.op i.ay i.byBit = i := by
  cases i <;> simp [instrOfBits, Instr.ofOp, Instr.op, Instr.ay, Instr.byBit]

@[simp] theorem instrOfBits_op (op : Op) (ay by' : Bool) : (instrOfBits op ay by').op = op := ofOp_op op _ _

/-- A bit of an operand that the operation does not read is dropped. -/
@[simp] theorem instrOfBits_ay (op : Op) (ay by' : Bool) : (instrOfBits op ay by').ay = (op.readsA && ay) := by
  cases op <;> cases ay <;> rfl

@[simp] theorem instrOfBits_byBit (op : Op) (ay by' : Bool) :
    (instrOfBits op ay by').byBit = (op.readsB && by') := by
  cases op <;> cases by' <;> rfl

theorem asm_wellFormed_iff (c : Asm) : c.WellFormed = true ↔
    (c.dotAy = true → c.op.readsA = true) ∧ (c.dotBy = true → c.op.readsB = true) := by
  simp only [Asm.WellFormed, Asm.ayAllowed, Asm.byAllowed, Bool.and_eq_true, Bool.or_eq_true, Bool.not_eq_true',
    imp_iff_not_or, Bool.not_eq_true]

/-- A well-formed spelling is the spelling of the command its bits name (R84): no bit is dropped. -/
theorem instrOfBits_toAsm {c : Asm} (h : c.WellFormed = true) : (instrOfBits c.op c.dotAy c.dotBy).toAsm = c := by
  obtain ⟨hay, hby⟩ := (asm_wellFormed_iff c).mp h
  have hA : (c.op.readsA && c.dotAy) = c.dotAy := Bool.and_eq_right_iff_imp.mpr hay
  have hB : (c.op.readsB && c.dotBy) = c.dotBy := Bool.and_eq_right_iff_imp.mpr hby
  simp only [Instr.toAsm, instrOfBits_op, instrOfBits_ay, instrOfBits_byBit, hA, hB]

/-- The decoder on an opcode of the map: the command with the given bits, or the rejection of an operand that the
operation does not read (R73, R81). -/
theorem decodeFields_code (op : Op) (ay by' : Bool) : decodeFields op.code ay by' =
    if (⟨op, ay, by'⟩ : Asm).WellFormed then .ok (instrOfBits op ay by') else .error .operandNotRead := by
  cases op <;> cases ay <;> cases by' <;> rfl

theorem decodeFields_of_no_op {c : BitVec 5} (h : opOfCode c = none) (ay by' : Bool) :
    decodeFields c ay by' = .error .reservedOpcode := by
  unfold opOfCode at h
  unfold decodeFields
  split at h <;> simp_all

theorem decode_encodeFields (op : Op) (ay by' : Bool) : decode (encodeFields op ay by') =
    if (⟨op, ay, by'⟩ : Asm).WellFormed then .ok (instrOfBits op ay by') else .error .operandNotRead := by
  simp [decode, decodeFields_code]

/-- The encoder's word decodes to the command it was given (R83). -/
theorem decode_encode (i : Instr) : decode (encode i) = .ok i := by
  have hwf : (⟨i.op, i.ay, i.byBit⟩ : Asm).WellFormed = true := instr_wellFormed i
  rw [encode, decode_encodeFields, if_pos hwf, instrOfBits_of_instr]

theorem decode_ok_iff {w : Word} {i : Instr} : decode w = .ok i ↔ encode i = w :=
  ⟨encode_of_decode, fun h => h ▸ decode_encode i⟩

/-- Settles O6: `encode_of_decode` rebuilds the word from its fields, and `decode_encode` reads them back. -/
theorem decodeAndEncodeAreInverse : Obligations.DecodeAndEncodeAreInverse :=
  fun _ _ => decode_ok_iff

/-- Settles O5: by the round trip it is enough to encode each command. -/
theorem decodeReadsWrittenOutWords : Obligations.DecodeReadsWrittenOutWords := by
  refine ⟨?_, ?_, ?_, ?_, ?_, ?_, ?_⟩ <;> exact decode_ok_iff.mpr rfl

/-! ### Operands read -/

/-- Settles O9: a decoded word has the bits of its command, and every command is well formed. -/
theorem operandUsageByOpcode : Obligations.OperandUsageByOpcode := by
  refine ⟨fun w i hdecode => ?_, fun op => ?_, fun op => ?_, fun op => ?_⟩
  · obtain ⟨-, -, -, hay, hby⟩ := decode_fields hdecode
    rw [← ayField, ← byField, hay, hby]
    exact (asm_wellFormed_iff i.toAsm).mp (instr_wellFormed i)
  all_goals cases op <;> decide

/-- Settles O10: an assembly error is a spelling that is not well formed, and the word of any other decodes to the
command its bits name. -/
theorem assemblyErrorsAndWords : Obligations.AssemblyErrorsAndWords := by
  intro c
  refine ⟨?_, fun w hw => ?_⟩
  · have hnone : assemble c = none ↔ ¬ c.WellFormed = true := by simp [assemble]
    rw [hnone, asm_wellFormed_iff]
    simp only [not_and_or, Classical.not_imp, Bool.not_eq_true]
  · obtain ⟨hwf, rfl⟩ : c.WellFormed = true ∧ encodeFields c.op c.dotAy c.dotBy = w := by
      simpa [assemble] using hw
    exact ⟨instrOfBits c.op c.dotAy c.dotBy, by rw [decode_encodeFields, if_pos hwf], instrOfBits_toAsm hwf⟩

/-! ### The match and mask table -/

/-- A word decodes to a command of op exactly where it is the word of op with its own AY and BY, each of which op
reads where it is 1. -/
theorem decode_op_iff {w : Word} {op : Op} : (∃ i, decode w = .ok i ∧ i.op = op) ↔
    encodeFields op (ayField w) (byField w) = w ∧ (⟨op, ayField w, byField w⟩ : Asm).WellFormed = true := by
  constructor
  · rintro ⟨i, hdecode, rfl⟩
    obtain ⟨-, -, -, hay, hby⟩ := decode_fields hdecode
    rw [hay, hby]
    exact ⟨encode_of_decode hdecode, instr_wellFormed i⟩
  · rintro ⟨hw, hwf⟩
    refine ⟨instrOfBits op (ayField w) (byField w), ?_, instrOfBits_op _ _ _⟩
    conv_lhs => rw [← hw, decode_encodeFields, if_pos hwf]

/-- The mask of an operation leaves AY free where it reads a, BY where it reads b, and fixes every other bit (R81). -/
def freeingMask (op : Op) : Word := ~~~(bitAt 8 op.readsA ||| bitAt 9 op.readsB)

theorem row_fields {r : TableRow} (hr : r ∈ opcodeTable) :
    r.mask = freeingMask r.op ∧ r.pattern = encodeFields r.op false false := by
  revert r
  decide

/-- No two rows have one mnemonic. -/
theorem row_eq_of_op : ∀ r ∈ opcodeTable, ∀ r' ∈ opcodeTable, r.op = r'.op → r = r' := by decide

theorem freeingMask_getLsbD (op : Op) {k : Nat} (hk : k < 32) : (freeingMask op).getLsbD k =
    !((op.readsA && decide (k = 8)) || (op.readsB && decide (k = 9))) := by
  simp only [freeingMask, BitVec.getLsbD_not, BitVec.getLsbD_or, bitAt_getLsbD _ _ _ hk, hk, decide_true,
    Bool.true_and]

/-- A word is that of op with its own AY and BY exactly where every other bit is that of OP. -/
theorem encodeFields_own_bits_iff (w : Word) (op : Op) : encodeFields op (ayField w) (byField w) = w ↔
    ∀ k < 32, k ≠ 8 → k ≠ 9 → w.getLsbD k = op.code.getLsbD k := by
  rw [BitVec.eq_of_getLsbD_eq_iff]
  refine forall₂_congr fun k hk => ?_
  rw [encodeFields_getLsbD op _ _ hk]
  by_cases h8 : k = 8
  · simp [h8, ayField]
  · by_cases h9 : k = 9
    · simp [h9, byField]
    · simp [h8, h9, eq_comm]

/-- Bit by bit: a masked word has the bits of OP where the mask fixes them, and AY or BY, where the mask fixes it,
is 0 (R81). -/
theorem masked_eq_iff (w : Word) (op : Op) : w &&& freeingMask op = encodeFields op false false ↔
    encodeFields op (ayField w) (byField w) = w ∧ (⟨op, ayField w, byField w⟩ : Asm).WellFormed = true := by
  have hmasked : w &&& freeingMask op = encodeFields op false false ↔ ∀ k < 32,
      (w.getLsbD k && !((op.readsA && decide (k = 8)) || (op.readsB && decide (k = 9)))) = op.code.getLsbD k := by
    rw [BitVec.eq_of_getLsbD_eq_iff]
    refine forall₂_congr fun k hk => ?_
    rw [BitVec.getLsbD_and, freeingMask_getLsbD op hk, encodeFields_getLsbD op _ _ hk]
    simp
  rw [hmasked, encodeFields_own_bits_iff, asm_wellFormed_iff]
  constructor
  · intro h
    refine ⟨fun k hk h8 h9 => ?_, fun hay => ?_, fun hby => ?_⟩
    · simpa [h8, h9] using h k hk
    · simpa [show w.getLsbD 8 = true from hay] using h 8 (by omega)
    · simpa [show w.getLsbD 9 = true from hby] using h 9 (by omega)
  · rintro ⟨h, hay, hby⟩ k hk
    by_cases h8 : k = 8
    · subst h8
      simpa [ayField] using hay
    · by_cases h9 : k = 9
      · subst h9
        simpa [byField] using hby
      · simpa [h8, h9] using h k hk h8 h9

/-- A row selects exactly the words that decode to its mnemonic (R81). -/
theorem row_selects_iff {r : TableRow} (hr : r ∈ opcodeTable) (w : Word) :
    w &&& r.mask = r.pattern ↔ ∃ i, decode w = .ok i ∧ i.op = r.op := by
  obtain ⟨hmask, hpattern⟩ := row_fields hr
  rw [hmask, hpattern, masked_eq_iff, decode_op_iff]

/-- Settles O7: two rows that select a word have the mnemonic it decodes to, and no mnemonic has two rows. -/
theorem tableRowsSelectTheDecodedMnemonic : Obligations.TableRowsSelectTheDecodedMnemonic := by
  intro w
  refine ⟨fun r hr => row_selects_iff hr w, fun r hr r' hr' hw hw' => ?_⟩
  obtain ⟨i, hdecode, hop⟩ := (row_selects_iff hr w).mp hw
  obtain ⟨i', hdecode', hop'⟩ := (row_selects_iff hr' w).mp hw'
  obtain rfl := Except.ok.inj (hdecode.symm.trans hdecode')
  exact row_eq_of_op r hr r' hr' (hop.symm.trans hop')

/-! ### The illegal words -/

theorem opOfCode_eq_none_iff : ∀ c : BitVec 5, opOfCode c = none ↔ c = 0x00 ∨ 0x0D ≤ c.toNat := by decide

/-- The opcodes that do not read the operand of a bit that is 1, as R82 lists them. -/
theorem not_wellFormed_iff (op : Op) (ay by' : Bool) : (⟨op, ay, by'⟩ : Asm).WellFormed = false ↔
    (by' = true ∧ (op.code = 0x02 ∨ op.code = 0x03 ∨ op.code = 0x08)) ∨
      ((ay = true ∨ by' = true) ∧ (op.code = 0x0A ∨ op.code = 0x0B ∨ op.code = 0x0C)) := by
  cases op <;> cases ay <;> cases by' <;> decide

/-- What the opcode map rejects: a reserved opcode, or an operand bit that the opcode does not read (R82). -/
theorem decodeFields_error_iff (c : BitVec 5) (ay by' : Bool) : (∃ e, decodeFields c ay by' = .error e) ↔
    c = 0x00 ∨ 0x0D ≤ c.toNat ∨ (by' = true ∧ (c = 0x02 ∨ c = 0x03 ∨ c = 0x08)) ∨
      ((ay = true ∨ by' = true) ∧ (c = 0x0A ∨ c = 0x0B ∨ c = 0x0C)) := by
  rw [← or_assoc, ← opOfCode_eq_none_iff]
  cases hop : opOfCode c with
  | none => simp [decodeFields_of_no_op hop]
  | some op =>
    obtain rfl := code_of_opOfCode hop
    rw [← not_wellFormed_iff, decodeFields_code]
    cases (⟨op, ay, by'⟩ : Asm).WellFormed <;> simp

theorem decode_error_iff (w : Word) : (∃ e, decode w = .error e) ↔
    rsv0Field w ≠ 0 ∨ rsv1Field w ≠ 0 ∨ ∃ e, decodeFields (opField w) (ayField w) (byField w) = .error e := by
  unfold decode
  split
  · next hrsv => exact iff_of_true ⟨_, rfl⟩ (by tauto)
  · tauto

/-- A raised error sets ERR, and keeps the code of an error that stands already (R205). -/
theorem raiseError_eq (code : BitVec 4) (s : State) : raiseError code s =
    { s with status :=
      { s.status with err := true, errCode := if s.status.err then s.status.errCode else code } } := by
  unfold raiseError Status.raise
  split
  · next herr => rw [← herr]
  · rfl

/-- Settles O8: the rejections of the decoder are the listed forms, and the submission of a rejected word raises
ILLEGAL_CMD. -/
theorem illegalWordsStartNothing : Obligations.IllegalWordsStartNothing := by
  refine ⟨fun w => ?_, fun s rest w e hin hbusy hdecode => ?_⟩
  · rw [decode_error_iff, decodeFields_error_iff]
    simp only [rsv0Field, rsv1Field, ayField, byField]
    tauto
  · have hidle : (respond .written (withInputs rest s)).status.busy = false := hbusy
    rw [step_submit s rest w hin, submit, hidle, hdecode]
    exact congrArg Host.Outcome.next (raiseError_eq codeIllegalCmd _)

end Sys2Proof.Machine
end

section
/-! Loads of ten limbs (spec/30_encoding.md R85, R86): setting limbs one by one, the queued writes of `lda` and
`ldb`, and the host's statements of `rdy`, `lda` and `wait`. -/

namespace Sys2Proof.Machine

/-! ### Limbs set one by one -/

/-- a with the limbs of x at the places ks, set one after the other. -/
def setLimbs {α : Type} (x : Vector α 10) (ks : List (Fin 10)) (a : Vector α 10) : Vector α 10 :=
  ks.foldl (fun a (k : Fin 10) => a.set k x[k]) a

theorem setLimbs_getElem {α : Type} (x : Vector α 10) (ks : List (Fin 10)) (a : Vector α 10) (j : Fin 10) :
    (setLimbs x ks a)[j] = if j ∈ ks then x[j] else a[j] := by
  induction ks generalizing a with
  | nil => simp [setLimbs]
  | cons k ks ih =>
    rw [setLimbs, List.foldl_cons, ← setLimbs, ih]
    by_cases hjk : j = k
    · subst hjk
      simp
    · simp [hjk, set_getElem_fin_ne hjk]

/-- Setting all ten limbs leaves nothing of the old ones. -/
theorem setLimbs_finRange {α : Type} (x a : Vector α 10) : setLimbs x (List.finRange 10) a = x := by
  apply Vector.ext
  intro j hj
  simpa using setLimbs_getElem x (List.finRange 10) a ⟨j, hj⟩

/-- The state after the limbs ks of x have been written by `write`, each write answered. -/
def writeLimbs (write : Fin 10 → Word → State → State) (x : Limbs) (ks : List (Fin 10)) (s : State) : State :=
  ks.foldl (fun t k => respond .written (write k x[k] t)) s

theorem writeLimbs_cons (write : Fin 10 → Word → State → State) (x : Limbs) (k : Fin 10) (ks : List (Fin 10))
    (s : State) : writeLimbs write x (k :: ks) s = writeLimbs write x ks (respond .written (write k x[k] s)) := rfl

theorem writeLimbs_writeA (x : Limbs) (ks : List (Fin 10)) (s : State) : writeLimbs writeA x ks s =
    { s with
      a := setLimbs x ks s.a
      aHeld := setLimbs (Vector.replicate 10 true) ks s.aHeld
      response := if ks.isEmpty then s.response else .written } := by
  induction ks generalizing s with
  | nil => rfl
  | cons k ks ih =>
    rw [writeLimbs_cons, ih]
    simp [setLimbs, respond, writeA]

theorem writeLimbs_writeB (x : Limbs) (ks : List (Fin 10)) (s : State) : writeLimbs writeB x ks s =
    { s with
      b := setLimbs x ks s.b
      bHeld := setLimbs (Vector.replicate 10 true) ks s.bHeld
      response := if ks.isEmpty then s.response else .written } := by
  induction ks generalizing s with
  | nil => rfl
  | cons k ks ih =>
    rw [writeLimbs_cons, ih]
    simp [setLimbs, respond, writeB]

/-- The ten writes of a load leave x in A, whatever stood there. -/
theorem writeLimbs_writeA_all (x : Limbs) (s : State) : writeLimbs writeA x (List.finRange 10) s =
    { s with a := x, aHeld := Vector.replicate 10 true, response := .written } := by
  rw [writeLimbs_writeA, setLimbs_finRange, setLimbs_finRange]
  rfl

theorem writeLimbs_writeB_all (x : Limbs) (s : State) : writeLimbs writeB x (List.finRange 10) s =
    { s with b := x, bHeld := Vector.replicate 10 true, response := .written } := by
  rw [writeLimbs_writeB, setLimbs_finRange, setLimbs_finRange]
  rfl

/-! ### The queued writes of `lda` and `ldb` -/

/-- A list over the numbers of the ten limbs is one over the limbs themselves. -/
theorem map_range_ten {β : Type} (f : Nat → β) : (List.range 10).map f = (List.finRange 10).map fun k => f k.val := by
  rw [← List.map_coe_finRange_eq_range, List.map_map]
  rfl

theorem toList_getD (x : Limbs) (k : Fin 10) : x.toList.getD k.val 0 = x[k] := by
  simp

/-- The writes that load the limbs ks of x from offset off on. -/
def loadEvents (p : Params) (off : Nat) (x : Limbs) (ks : List (Fin 10)) : List Event :=
  ks.map fun k => wr p (off + 4 * k.val) x[k]

theorem loadAt_eq (p : Params) (off : Nat) (x : Limbs) :
    loadAt p off x = loadEvents p off x (List.finRange 10) := by
  simp only [loadAt, loadEvents, map_range_ten, toList_getD]

/-- A run of queued writes, one step each: `write` is what a write from offset off on reaches, and it looks neither
at the queue nor at the parameters. -/
theorem run_loadEvents {off : Nat} {write : Fin 10 → Word → State → State}
    (hstep : ∀ {s : State} {rest : List Event} {k : Fin 10} {v : Word},
      s.inputs = wr s.params (off + 4 * k.val) v :: rest →
        step s = .next (respond .written (write k v (withInputs rest s))))
    (hinputs : ∀ k v l s, write k v (withInputs l s) = withInputs l (write k v s))
    (hparams : ∀ k v s, (write k v s).params = s.params)
    (x : Limbs) (rest : List Event) (ks : List (Fin 10)) (s : State) :
    run ks.length (withInputs (loadEvents s.params off x ks ++ rest) s) =
      .next (withInputs rest (writeLimbs write x ks s)) := by
  induction ks generalizing s with
  | nil => rfl
  | cons k ks ih =>
    have hfirst : step (withInputs (loadEvents s.params off x (k :: ks) ++ rest) s) =
        .next (withInputs (loadEvents s.params off x ks ++ rest) (respond .written (write k x[k] s))) := by
      rw [hstep (k := k) (v := x[k]) rfl, hinputs, hinputs]
      rfl
    rw [List.length_cons, run_succ hfirst, writeLimbs_cons, ← ih, respond_params, hparams]

/-- The ten writes of a load, as ten steps from a queue that holds them. -/
theorem run_load {off : Nat} {write : Fin 10 → Word → State → State}
    (hstep : ∀ {s : State} {rest : List Event} {k : Fin 10} {v : Word},
      s.inputs = wr s.params (off + 4 * k.val) v :: rest →
        step s = .next (respond .written (write k v (withInputs rest s))))
    (hinputs : ∀ k v l s, write k v (withInputs l s) = withInputs l (write k v s))
    (hparams : ∀ k v s, (write k v s).params = s.params)
    {x : Limbs} {rest : List Event} {s : State} (hin : s.inputs = loadAt s.params off x ++ rest) :
    run 10 s = .next (withInputs rest (writeLimbs write x (List.finRange 10) s)) := by
  have hs : s = withInputs (loadEvents s.params off x (List.finRange 10) ++ rest) s := by
    rw [← loadAt_eq, ← hin]
    rfl
  conv_lhs => rw [hs]
  exact run_loadEvents hstep hinputs hparams x rest (List.finRange 10) s

/-- Settles O56: ten writes to A, or to B, one step each, set every limb. -/
theorem ldaAndLdbLoadTheOperands : Obligations.LdaAndLdbLoadTheOperands := by
  intro s x rest
  refine ⟨fun hin => ?_, fun hin => ?_⟩
  · rw [run_load step_writeA (fun _ _ _ _ => rfl) (fun _ _ _ => rfl) hin, writeLimbs_writeA_all]
    rfl
  · rw [run_load step_writeB (fun _ _ _ _ => rfl) (fun _ _ _ => rfl) hin, writeLimbs_writeB_all]
    rfl

/-! ### `wait` -/

/-- Bit 0 of STATUS is BUSY (R26). -/
theorem Status.word_bit0 (st : Status) : st.word.getLsbD 0 = st.busy := by
  simpa using st.word_getLsbD 0 (by omega)

/-- Settles O57: the read puts STATUS into t9, and the branch looks at its bit 0, which is BUSY. -/
theorem waitPollsUntilIdle : Obligations.WaitPollsUntilIdle := by
  rintro program _ h s hread hbranch rfl
  have hstatus : readReg (windowReg 0x7C) s = .ok s.status.word := by rw [windowReg_status, readReg]
  have hpoll := (hostStep_at s hread).trans (hostStmt_rd (by omega) (by omega) hstatus)
  have ht9 : ((h.setTemp (.t 9) s.status.word).goTo (h.position + 1)).temp (.t 9) = some s.status.word :=
    (goTo_temp _ _ _).trans (setTemp_temp_same _ _ _)
  have hback := (hostStep_at (respond (.value s.status.word) s) hbranch).trans (hostStmt_bit1 _ ht9)
  refine ⟨_, _, hpoll, hback, ?_, ht9, fun k hk => setTemp_temp_ne _ _ hk⟩
  simp only [goTo_position, Status.word_bit0]

/-! ### `rdy` and `lda` of a temporary -/

/-- One turn of the host at the statement that the rest of its program begins with. -/
theorem hostRun_cons {program more : List HostStmt} {i : HostStmt} {turns : List HostTurn} {h h' : HostView}
    {s t : State} (hprog : program.drop h.position = i :: more) (hstmt : hostStmt i h s = .next h' t) :
    hostRun program (.host :: turns) h s = hostRun program turns h' t := by
  have hi : program[h.position]? = some i := by
    rw [← List.head?_drop, hprog, List.head?_cons]
  exact hostRun_host ((hostStep_at s hi).trans hstmt)

theorem drop_succ_of_drop {program more : List HostStmt} {i : HostStmt} {p : Nat}
    (hprog : program.drop p = i :: more) : program.drop (p + 1) = more := by
  rw [← List.drop_drop, hprog, List.drop_one, List.tail_cons]

/-- The statements that read the limbs ks of Y into the temporary. -/
def readStmts (vector : Nat) (ks : List (Fin 10)) : List HostStmt :=
  ks.map fun k => .rd (0x50 + 4 * k.val) (.limb vector k.val)

/-- The statements that write the limbs ks of the temporary to A. -/
def writeStmts (vector : Nat) (ks : List (Fin 10)) : List HostStmt :=
  ks.map fun k => .wr (4 * k.val) (.temp (.limb vector k.val))

theorem rdyStmts_eq (vector : Nat) : rdyStmts vector = readStmts vector (List.finRange 10) :=
  map_range_ten _

theorem ldaStmts_temps_eq (vector : Nat) : ldaStmts (.temps vector) = writeStmts vector (List.finRange 10) :=
  map_range_ten _

/-- The host after it has read the limbs ks of y into the temporary. -/
def readLimbs (vector : Nat) (y : Limbs) (ks : List (Fin 10)) (h : HostView) : HostView :=
  ks.foldl (fun h (k : Fin 10) => (h.setTemp (.limb vector k.val) y[k]).goTo (h.position + 1)) h

theorem readLimbs_cons (vector : Nat) (y : Limbs) (k : Fin 10) (ks : List (Fin 10)) (h : HostView) :
    readLimbs vector y (k :: ks) h =
      readLimbs vector y ks ((h.setTemp (.limb vector k.val) y[k]).goTo (h.position + 1)) := rfl

theorem readLimbs_position (vector : Nat) (y : Limbs) (ks : List (Fin 10)) (h : HostView) :
    (readLimbs vector y ks h).position = h.position + ks.length := by
  induction ks generalizing h with
  | nil => rfl
  | cons k ks ih =>
    rw [readLimbs_cons, ih, goTo_position, List.length_cons]
    omega

/-- A limb that is read holds the limb of y, whatever is read after it. -/
theorem readLimbs_temp_mem (vector : Nat) (y : Limbs) (ks : List (Fin 10)) (h : HostView) {j : Fin 10}
    (hj : j ∈ ks ∨ h.temp (.limb vector j.val) = some y[j]) :
    (readLimbs vector y ks h).temp (.limb vector j.val) = some y[j] := by
  induction ks generalizing h with
  | nil => exact hj.resolve_left List.not_mem_nil
  | cons k ks ih =>
    rw [readLimbs_cons]
    refine ih _ ?_
    by_cases hjk : j = k
    · subst hjk
      exact .inr (setTemp_temp_same _ _ _)
    · refine hj.imp (fun hmem => (List.mem_cons.mp hmem).resolve_left hjk) fun htemp => ?_
      rw [goTo_temp, setTemp_temp_ne _ _ (by simpa [Fin.ext_iff] using hjk), htemp]

/-- A temporary that is not read into keeps what it holds. -/
theorem readLimbs_temp_ne (vector : Nat) (y : Limbs) (ks : List (Fin 10)) (h : HostView) {t : HostTemp}
    (ht : ∀ k ∈ ks, t ≠ .limb vector k.val) : (readLimbs vector y ks h).temp t = h.temp t := by
  induction ks generalizing h with
  | nil => rfl
  | cons k ks ih =>
    obtain ⟨hk, hks⟩ := List.forall_mem_cons.mp ht
    rw [readLimbs_cons, ih _ hks, goTo_temp, setTemp_temp_ne _ _ hk]

/-- The reads of limbs of Y, one turn of the host each: they change nothing of the block but its answer. -/
theorem hostRun_readStmts {program more : List HostStmt} (turns : List HostTurn) (vector : Nat)
    (ks : List (Fin 10)) (h : HostView) (s : State) (hheld : s.yHeld = true)
    (hprog : program.drop h.position = readStmts vector ks ++ more) :
    ∃ r, hostRun program (List.replicate ks.length .host ++ turns) h s =
      hostRun program turns (readLimbs vector s.y ks h) (respond r s) := by
  induction ks generalizing h s with
  | nil => exact ⟨s.response, rfl⟩
  | cons k ks ih =>
    have hread := hostStmt_rd (k := .limb vector k.val) (h := h) (by omega) (by omega)
      ((congrArg (readReg · s) (windowReg_y k)).trans (readReg_y_held k hheld))
    obtain ⟨r, hrun⟩ := ih ((h.setTemp (.limb vector k.val) s.y[k]).goTo (h.position + 1))
      (respond (.value s.y[k]) s) hheld (drop_succ_of_drop hprog)
    exact ⟨r, (hostRun_cons hprog hread).trans hrun⟩

/-- The writes of limbs of a temporary to A, one turn of the host each. -/
theorem hostRun_writeStmts {program more : List HostStmt} (turns : List HostTurn) (vector : Nat) (x : Limbs)
    (ks : List (Fin 10)) (h : HostView) (s : State)
    (htemps : ∀ k : Fin 10, h.temp (.limb vector k.val) = some x[k])
    (hprog : program.drop h.position = writeStmts vector ks ++ more) :
    hostRun program (List.replicate ks.length .host ++ turns) h s =
      hostRun program turns (h.goTo (h.position + ks.length)) (writeLimbs writeA x ks s) := by
  induction ks generalizing h s with
  | nil => rfl
  | cons k ks ih =>
    have hwrite := (hostStmt_wr_temp s (htemps k)).trans (hostStmt_wr_a k x[k] h s)
    have hrun := ih (h.goTo (h.position + 1)) (respond .written (writeA k x[k] s)) htemps (drop_succ_of_drop hprog)
    refine (hostRun_cons hprog hwrite).trans (hrun.trans ?_)
    rw [writeLimbs_cons, goTo_position, List.length_cons, Nat.add_assoc, Nat.add_comm 1]
    rfl

/-- `rdy -> T`: the temporary takes Y, and every other temporary keeps what it holds (R86). -/
theorem hostRun_rdy {program more : List HostStmt} (turns : List HostTurn) (vector : Nat) (h : HostView) {s : State}
    (hheld : s.yHeld = true) (hprog : program.drop h.position = rdyStmts vector ++ more) :
    ∃ (h' : HostView) (r : BusResponse),
      hostRun program (List.replicate 10 .host ++ turns) h s = hostRun program turns h' (respond r s) ∧
      h'.position = h.position + 10 ∧
      (∀ k : Fin 10, h'.temp (.limb vector k.val) = some s.y[k]) ∧
      (∀ t, (∀ i, i < 10 → t ≠ .limb vector i) → h'.temp t = h.temp t) := by
  rw [rdyStmts_eq] at hprog
  obtain ⟨r, hrun⟩ := hostRun_readStmts turns vector (List.finRange 10) h s hheld hprog
  exact ⟨_, r, hrun, readLimbs_position _ _ _ _,
    fun k => readLimbs_temp_mem _ _ _ _ (.inl (List.mem_finRange k)),
    fun t ht => readLimbs_temp_ne _ _ _ _ fun k _ => ht k.val k.isLt⟩

/-- `lda T`: A takes what the temporary holds (R86, log 16). -/
theorem hostRun_lda {program more : List HostStmt} (turns : List HostTurn) {vector : Nat} {x : Limbs}
    {h : HostView} (s : State) (htemps : ∀ k : Fin 10, h.temp (.limb vector k.val) = some x[k])
    (hprog : program.drop h.position = ldaStmts (.temps vector) ++ more) :
    hostRun program (List.replicate 10 .host ++ turns) h s = hostRun program turns (h.goTo (h.position + 10))
      { s with a := x, aHeld := Vector.replicate 10 true, response := .written } := by
  rw [ldaStmts_temps_eq] at hprog
  rw [← writeLimbs_writeA_all]
  exact hostRun_writeStmts turns vector x (List.finRange 10) h s htemps hprog

/-- Settles O58: the ten reads of `rdy` put Y into the temporary, and the ten writes of `lda` put it into A. -/
theorem rdyThenLdaCopiesYToA : Obligations.RdyThenLdaCopiesYToA := by
  intro vector temps s hheld
  obtain ⟨h, r, hreads, hposition, htemps, hothers⟩ :=
    hostRun_rdy (program := rdyStmts vector ++ ldaStmts (.temps vector)) (List.replicate 10 .host) vector ⟨0, temps⟩
      hheld rfl
  have hwrites := hostRun_lda (program := rdyStmts vector ++ ldaStmts (.temps vector)) (more := []) [] (respond r s)
    htemps (by rw [hposition]; rfl)
  refine ⟨h.goTo (h.position + 10), hreads.trans hwrites, ?_, htemps, hothers⟩
  rw [goTo_position, hposition]

end Sys2Proof.Machine
end

section
/-! The Montgomery commands (spec/41_montgomery.md R122 to R128): the commands built on the kernel complete with
their datapath value, or with a free value after an overflow under TOPLIMB_OVERFLOW = any (R122), and a canonical
operand a meets no overflow. -/

namespace Sys2Proof

/-- Montgomery form as a number: to_mont multiplies by R = 2^320 (R126). -/
theorem val_toMont (x : Limbs) (hx : Canonical x) : val (toMont x) = val x * 2 ^ 320 % modulus := by
  obtain ⟨hcanonical, -, hclass⟩ := toMont_spec x hx
  apply eq_mod_of_cast hcanonical
  rw [montClass] at hclass
  rw [Nat.cast_mul]
  linear_combination ((2 ^ 320 : Nat) : ZMod modulus) * hclass - (val (toMontT x).value : ZMod modulus) * r_rInv

/-- The class of to_mont(x) is val(x), and from_mont answers the canonical vector of that class (R128). -/
theorem fromMont_toMont (x : Limbs) (hx : Canonical x) : fromMont (toMont x) = x := by
  obtain ⟨hto, -, hclass⟩ := toMont_spec x hx
  obtain ⟨hfrom, -, hval⟩ := fromMont_spec (toMont x) hto
  exact canonical_ext hfrom hx (hval.trans hclass)

theorem toMont_one : toMont Rom.one = Rom.rm := by
  apply val_injective
  rw [val_toMont Rom.one one_canonical, val_one, Nat.one_mul, val_rm, modulus]

theorem fromMont_rm : fromMont Rom.rm = Rom.one := by
  rw [← toMont_one, fromMont_toMont Rom.one one_canonical]

namespace Machine

@[simp] theorem beforeResult_freeDraws (op : Op) (s : State) : (beforeResult op s).freeDraws = s.freeDraws := by
  rw [beforeResult_eq]

/-- SAMPLE calls no kernel, so a command that overflowed is another one (R122). -/
theorem op_ne_sample_of_overflow {op : Op} {a b : Limbs} {d : Draw} {r : Tracked} (hr : resultOf op a b d = some r)
    (hoverflow : r.overflow = true) : op ≠ .sample := by
  rintro rfl
  cases hr
  cases hoverflow

/-- With a canonical operand a no command overflows a top-limb sum (R123). -/
theorem resultOf_overflow_of_canonical {op : Op} {a b : Limbs} {d : Draw} {r : Tracked} (ha : Canonical a)
    (hr : resultOf op a b d = some r) : r.overflow = false := by
  cases op <;> cases hr
  case montMul => exact (kernel_spec a b ha).2.1
  case toMont => exact (kernel_spec a Rom.r2 ha).2.1
  case fromMont => exact (kernel_spec a Rom.one ha).2.1
  case mul => exact (fmul_spec a b ha).1
  case pow => exact (fpow_spec a b ha).1
  case inv => exact (fpow_spec a Rom.nm2 ha).1
  case add | sub | sample | ldzero | ldone => rfl

/-- With a canonical operand a every command but EQ completes with its datapath value, whatever the parameters. -/
theorem exec_busy_canonical (i : Instr) (s : State) (r : Tracked) (hbusy : s.status.busy = true)
    (ha : Canonical s.la) (hr : resultOf i.op s.la s.lb (entropyDraw s) = some r) :
    exec i s = .next (completedWith r.value (beforeResult i.op s)) := by
  rw [exec_busy i s r hbusy hr, completeY_plain (.inr (resultOf_overflow_of_canonical ha hr))]

theorem exec_toMont_canonical (sa : SrcA) (s : State) (hbusy : s.status.busy = true) (ha : Canonical s.la) :
    exec (.toMont sa) s = .next (completedWith (toMont s.la) s) :=
  exec_busy_canonical (.toMont sa) s (toMontT s.la) hbusy ha rfl

theorem exec_fromMont_canonical (sa : SrcA) (s : State) (hbusy : s.status.busy = true) (ha : Canonical s.la) :
    exec (.fromMont sa) s = .next (completedWith (fromMont s.la) s) :=
  exec_busy_canonical (.fromMont sa) s (fromMontT s.la) hbusy ha rfl

/-- Settles O33: the kernel's law for a canonical operand a, at the completion of MONT_MUL. -/
theorem montMulOfACanonicalOperand : Obligations.MontMulOfACanonicalOperand := by
  intro s sa sb hbusy ha
  obtain ⟨hcanonical, -, hval⟩ := kernel_spec s.la s.lb ha
  exact ⟨_, exec_busy_canonical (.montMul sa sb) s _ hbusy ha rfl, hcanonical, hval⟩

/-- Settles O35: the kernel's law with ONE as operand b, at the completion of FROM_MONT. -/
theorem fromMontOfACanonicalOperand : Obligations.FromMontOfACanonicalOperand := by
  intro s sa hbusy ha
  obtain ⟨hcanonical, -, hval⟩ := kernel_spec s.la Rom.one ha
  rw [val_one, Nat.mul_one] at hval
  exact ⟨_, exec_fromMont_canonical sa s hbusy ha, hcanonical, hval⟩

/-- FROM_MONT of Y is accepted once Y holds a value, and latches it (R127, R33). -/
theorem exec_fromMont_regY_idle (s : State) (hidle : s.status.busy = false) (hheld : s.yHeld = true) :
    exec (.fromMont .regY) s = .next (latch (encode (.fromMont .regY)) s) := by
  rw [exec_idle _ s hidle]
  exact accept_held _ s ⟨fun _ => hheld, nofun⟩

/-- FROM_MONT of Y reads Y as its operand a (R72). -/
theorem latch_fromMont_regY_la (s : State) : (latch (encode (.fromMont .regY)) s).la = s.y := rfl

/-- Settles O34: TO_MONT leaves to_mont(LA) in Y, which is canonical, so the FROM_MONT accepted from Y takes it
back. -/
theorem domainRoundTrip : Obligations.DomainRoundTrip := by
  refine ⟨fromMont_toMont, ⟨toMont_one, fromMont_rm⟩, ?_⟩
  intro s sa hbusy ha
  refine ⟨_, _, _, exec_toMont_canonical sa s hbusy ha, val_toMont s.la ha, exec_fromMont_regY_idle _ rfl rfl,
    exec_fromMont_canonical .regY _ rfl ?_, ?_⟩
  · rw [latch_fromMont_regY_la]
    exact (toMont_spec s.la ha).1
  · rw [latch_fromMont_regY_la]
    exact fromMont_toMont s.la ha

/-- Settles O45: N0I is the negated inverse of N[0], so the multiplier f cancels the low limb. -/
theorem lowLimbIsCancelled : Obligations.LowLimbIsCancelled := by
  intro a r m
  have hlow := kernelInner_low_of_ne m a.toList Rom.n.toList r.toList (by simp) (by simp) n0i_spec
  have hlen := kernelInner_length m (kernelF a.toList r.toList m) a.toList Rom.n.toList r.toList 0 0 (by simp)
    (by simp)
  obtain ⟨low, rest, hlimbs⟩ := List.exists_cons_of_length_eq_add_one (hlen.trans a.length_toList)
  rw [hlimbs] at hlow ⊢
  exact congrArg some hlow

/-- Settles O46: under either value of the parameter EQ writes its flag, and every other command completes with its
datapath value, because no kernel call overflows. -/
theorem topLimbParameterIsIrrelevantWithinThePrecondition :
    Obligations.TopLimbParameterIsIrrelevantWithinThePrecondition := by
  intro s t u i hbusy ha ht hu
  rcases resultOf_cases i.op s.la s.lb (entropyDraw s) with heq | ⟨r, hr⟩
  · cases i with
    | eq sa sb =>
      have hcomplete (p : Params) := exec_busy_eq sa sb { s with params := p } hbusy
      rw [hcomplete] at ht hu
      cases ht
      cases hu
      exact ⟨rfl, rfl, rfl⟩
    | _ => cases heq
  · have hcomplete (p : Params) := exec_busy_canonical i { s with params := p } r hbusy ha hr
    rw [hcomplete] at ht hu
    cases ht
    cases hu
    simp [completedWith]

/-- Settles O26: each command's datapath value, where no free result is drawn. -/
theorem kernelCommandsComplete : Obligations.KernelCommandsComplete := by
  intro s sa sb hbusy
  exact ⟨exec_busy_plain (.montMul sa sb) s _ hbusy rfl nofun, exec_busy_plain (.toMont sa) s _ hbusy rfl nofun,
    exec_busy_plain (.fromMont sa) s _ hbusy rfl nofun, exec_busy_plain (.mul sa sb) s _ hbusy rfl nofun,
    exec_busy_plain (.pow sa sb) s _ hbusy rfl nofun, exec_busy_plain (.inv sa) s _ hbusy rfl nofun⟩

/-- Settles O27: the completion draws a free result, and no entropy besides. -/
theorem overflowUnderAnyCompletesWithAFreeValue : Obligations.OverflowUnderAnyCompletesWithAFreeValue := by
  intro s i r hbusy hany hr hoverflow
  refine ⟨Config.freeResult s.freeDraws, ?_⟩
  rw [exec_busy i s r hbusy hr, beforeResult, if_neg (op_ne_sample_of_overflow hr hoverflow),
    completeY_free hany hoverflow]

end Machine
end Sys2Proof
end

section
/-! Field addition, subtraction and multiplication (spec/42_field_arith.md R140 to R147): the values of fadd and fsub
with and without a reduction, their classes mod N, and the completion of ADD, SUB, MUL and the constants. -/

namespace Sys2Proof

/-- A sum below 2N does not wrap at 2^320, and one subtraction of N takes it below N (R145(a)). -/
theorem fadd_val_of_lt {a b : Limbs} (h : val a + val b < 2 * modulus) :
    val (fadd a b) = (val a + val b) % modulus := by
  rw [fadd_val, Nat.mod_eq_of_lt (h.trans two_modulus_lt)]
  split
  · next hle => rw [Nat.mod_eq_sub_mod hle, Nat.mod_eq_of_lt (by omega)]
  · next hlt => rw [Nat.mod_eq_of_lt (Nat.not_le.mp hlt)]

theorem addInner_eq_limbs (a b : Limbs) : addInner a b = limbs ((val a + val b) % 2 ^ 320) := by
  rw [← addInner_val, limbs_val]

theorem fsub_val_of_le {a b : Limbs} (h : val b ≤ val a) : val (fsub a b) = val a - val b := by
  rw [fsub_val, if_neg (Nat.not_lt.mpr h)]

/-- On a borrow the discarded carry of add_inner takes back the 2^320 of the wrapped difference (R143, R145(b)). -/
theorem fsub_val_of_lt {a b : Limbs} (h : val a < val b) :
    (val (fsub a b) : Int) = ((val a : Int) - val b + modulus) % 2 ^ 320 := by
  have hb := val_lt b
  have hwrap : ((val a + 2 ^ 320 - val b + modulus : Nat) : Int) = (val a : Int) - val b + modulus + 2 ^ 320 := by
    omega
  rw [fsub_val, if_pos h, Int.natCast_mod, hwrap, Nat.cast_pow, Nat.cast_ofNat, Int.add_emod_right]

/-- Adding N back makes up for a borrow of at most N (R145(b)). -/
theorem fsub_val_of_borrow_le {a b : Limbs} (h : val a < val b) (hle : val b - val a ≤ modulus) :
    (val (fsub a b) : Int) = (val a : Int) - val b + modulus := by
  have hN := modulus_lt
  rw [fsub_val_of_lt h, Int.emod_eq_of_lt (by omega) (by omega)]

/-- After a borrow of more than N the difference is still negative with N added back, so it wraps to above N
(R145(b)). -/
theorem fsub_val_of_borrow_gt {a b : Limbs} (h : val a < val b) (hgt : modulus < val b - val a) :
    (val (fsub a b) : Int) = (val a : Int) - val b + modulus + 2 ^ 320 := by
  have hb := val_lt b
  rw [fsub_val_of_lt h, ← Int.add_emod_right, Int.emod_eq_of_lt (by omega) (by omega)]

theorem fsub_canonical_iff_of_lt {a b : Limbs} (h : val a < val b) :
    Canonical (fsub a b) ↔ val b - val a ≤ modulus := by
  have hb := val_lt b
  rw [Canonical]
  rcases Nat.lt_or_ge modulus (val b - val a) with hgt | hle
  · have hval := fsub_val_of_borrow_gt h hgt
    omega
  · have hval := fsub_val_of_borrow_le h hle
    omega

theorem fadd_canonical {a b : Limbs} (ha : Canonical a) (hb : Canonical b) : Canonical (fadd a b) := by
  rw [Canonical, fadd_val_of_lt (by omega)]
  exact Nat.mod_lt _ modulus_pos

theorem fsub_canonical {a b : Limbs} (ha : Canonical a) (hb : Canonical b) : Canonical (fsub a b) := by
  rcases Nat.lt_or_ge (val a) (val b) with hlt | hle
  · exact (fsub_canonical_iff_of_lt hlt).mpr (by omega)
  · rw [Canonical, fsub_val_of_le hle]
    omega

/-- The difference of canonical operands is taken mod N (R145(b)). -/
theorem fsub_val_of_canonical {a b : Limbs} (ha : Canonical a) (hb : Canonical b) :
    (val (fsub a b) : Int) = ((val a : Int) - val b) % modulus := by
  rcases Nat.lt_or_ge (val a) (val b) with hlt | hle
  · rw [fsub_val_of_borrow_le hlt (by omega), ← Int.add_emod_right, Int.emod_eq_of_lt (by omega) (by omega)]
  · rw [fsub_val_of_le hle, Nat.cast_sub hle, Int.emod_eq_of_lt (by omega) (by omega)]

theorem fadd_cast {a b : Limbs} (ha : Canonical a) (hb : Canonical b) :
    (val (fadd a b) : ZMod modulus) = val a + val b := by
  rw [fadd_val_of_lt (by omega), cast_mod, Nat.cast_add]

theorem fsub_cast {a b : Limbs} (ha : Canonical a) (hb : Canonical b) :
    (val (fsub a b) : ZMod modulus) = val a - val b := by
  rw [← Int.cast_natCast (val (fsub a b)), fsub_val_of_canonical ha hb, ZMod.intCast_mod, Int.cast_sub,
    Int.cast_natCast, Int.cast_natCast]

theorem fsub_fadd_cancel {a b : Limbs} (ha : Canonical a) (hb : Canonical b) : fsub (fadd a b) a = b := by
  have hsum := fadd_canonical ha hb
  apply canonical_ext (fsub_canonical hsum ha) hb
  rw [fsub_cast hsum ha, fadd_cast ha hb, add_sub_cancel_left]

theorem fsub_self (a : Limbs) : fsub a a = Rom.zero := by
  apply val_injective
  rw [fsub_val_of_le le_rfl, Nat.sub_self, val_zero]

theorem fmul_one {a : Limbs} (ha : Canonical a) : fmul a Rom.one = a := by
  apply val_injective
  rw [fmul, (fmul_spec a Rom.one ha).2, val_one, Nat.mul_one, Nat.mod_eq_of_lt ha]

theorem fadd_zero {a : Limbs} (ha : Canonical a) : fadd a Rom.zero = a := by
  apply canonical_ext (fadd_canonical ha zero_canonical) ha
  rw [fadd_cast ha zero_canonical, val_zero, Nat.cast_zero, add_zero]

namespace Machine

theorem exec_add_busy (sa : SrcA) (sb : SrcB) {s : State} (hbusy : s.status.busy = true) :
    exec (.add sa sb) s = .next (completedWith (fadd s.la s.lb) s) :=
  exec_busy_plain (.add sa sb) s (.exact (fadd s.la s.lb)) hbusy rfl nofun (.inr rfl)

theorem exec_sub_busy (sa : SrcA) (sb : SrcB) {s : State} (hbusy : s.status.busy = true) :
    exec (.sub sa sb) s = .next (completedWith (fsub s.la s.lb) s) :=
  exec_busy_plain (.sub sa sb) s (.exact (fsub s.la s.lb)) hbusy rfl nofun (.inr rfl)

/-- Settles O28: none of the four calls the kernel, so no free result is drawn under either parameter. -/
theorem addSubAndConstantsComplete : Obligations.AddSubAndConstantsComplete := by
  intro s sa sb hbusy
  exact ⟨exec_add_busy sa sb hbusy, exec_sub_busy sa sb hbusy,
    exec_busy_plain .ldzero s (.exact Rom.zero) hbusy rfl nofun (.inr rfl),
    exec_busy_plain .ldone s (.exact Rom.one) hbusy rfl nofun (.inr rfl)⟩

/-- Settles O36: below 2N the single reduction suffices; from there on fadd is reduce_sub of the wrapped sum. -/
theorem addReducesOnce : Obligations.AddReducesOnce := by
  intro s sa sb hbusy
  refine ⟨_, exec_add_busy sa sb hbusy, fadd_val_of_lt, fun _ => ?_⟩
  rw [fadd, addInner_eq_limbs]

/-- Settles O37: the value of fsub with and without a borrow, and its range. -/
theorem subAddsBackOnce : Obligations.SubAddsBackOnce := by
  intro s sa sb hbusy
  exact ⟨_, exec_sub_busy sa sb hbusy, fsub_val_of_le, fsub_val_of_lt, fsub_canonical_iff_of_lt,
    fun ha hb => ⟨fsub_canonical ha hb, fsub_val_of_canonical ha hb⟩⟩

/-- Settles O38: a canonical LA meets no overflow of the top limb, and fmul is the product mod N. -/
theorem mulOfACanonicalOperand : Obligations.MulOfACanonicalOperand := by
  intro s sa sb hbusy ha
  exact ⟨_, exec_busy_canonical (.mul sa sb) s _ hbusy ha rfl, (fmul_spec s.la s.lb ha).2⟩

/-- Settles O43: each law holds of the classes mod N, and canonical vectors of one class are equal. -/
theorem algebraicLaws : Obligations.AlgebraicLaws := by
  intro a b ha hb
  have hcancel := fsub_fadd_cancel ha hb
  exact ⟨hcancel, by rw [hcancel, fsub_self], fmul_one ha, fadd_zero ha⟩

end Machine
end Sys2Proof
end

section
/-! Exponentiation (spec/43_exponentiation.md R160 to R165): the value of fpow for a canonical base, its corner cases,
and the completion of POW and INV. -/

namespace Sys2Proof

/-- The accumulator starts canonical and is operand a of every kernel call (R162(b)). -/
theorem fpow_canonical (base e : Limbs) : Canonical (fpow base e) := by
  obtain ⟨hcanonical, -, -⟩ := fpow_class base e
  exact hcanonical

theorem val_fpow {base : Limbs} (hbase : Canonical base) (e : Limbs) :
    val (fpow base e) = val base ^ val e % modulus := by
  obtain ⟨-, hval⟩ := fpow_spec base e hbase
  exact hval

/-- A canonical vector is the power of a canonical base once its value is. -/
theorem fpow_eq_of_val {base e y : Limbs} (hbase : Canonical base) (h : val base ^ val e % modulus = val y) :
    fpow base e = y :=
  val_injective ((val_fpow hbase e).trans h)

theorem one_mod_modulus : 1 % modulus = 1 := Nat.mod_eq_of_lt (val_one ▸ one_canonical)

theorem val_ne_zero {x : Limbs} (h : x ≠ Rom.zero) : val x ≠ 0 :=
  fun h0 => h (val_injective (h0.trans val_zero.symm))

/-- No bit of the exponent is 1, so the Montgomery base is never multiplied in, canonical or not (R163). -/
theorem fpow_exponent_zero (base : Limbs) : fpow base Rom.zero = Rom.one := by
  obtain ⟨hcanonical, -, hclass⟩ := fpow_class base Rom.zero
  apply canonical_ext hcanonical one_canonical
  rw [hclass, val_zero, pow_zero, val_one, Nat.cast_one]

theorem fpow_exponent_one {base : Limbs} (hbase : Canonical base) : fpow base Rom.one = base := by
  apply fpow_eq_of_val hbase
  rw [val_one, pow_one, Nat.mod_eq_of_lt hbase]

theorem fpow_base_zero {e : Limbs} (he : val e ≠ 0) : fpow Rom.zero e = Rom.zero := by
  apply fpow_eq_of_val zero_canonical
  rw [val_zero, zero_pow he, Nat.zero_mod]

theorem fpow_base_one (e : Limbs) : fpow Rom.one e = Rom.one := by
  apply fpow_eq_of_val one_canonical
  rw [val_one, one_pow, one_mod_modulus]

/-- Fermat's identity for the base, read off the exponent N - 1 (R163). -/
theorem fpow_exponent_fermat {base e : Limbs} (hbase : Canonical base) (he : val e = modulus - 1)
    (hfermat : val base ^ (modulus - 1) % modulus = 1) : fpow base e = Rom.one := by
  apply fpow_eq_of_val hbase
  rw [he, hfermat, val_one]

theorem two_lt_modulus : 2 < modulus := by decide +kernel

theorem val_nm2_modulus : val Rom.nm2 = modulus - 2 := val_nm2

theorem val_nm2_ne_zero : val Rom.nm2 ≠ 0 := by
  have hN := two_lt_modulus
  rw [val_nm2_modulus]
  omega

theorem val_finv {a : Limbs} (ha : Canonical a) : val (finv a) = val a ^ (modulus - 2) % modulus := by
  rw [← val_nm2_modulus]
  exact val_fpow ha Rom.nm2

theorem finv_zero : finv Rom.zero = Rom.zero := fpow_base_zero val_nm2_ne_zero

/-- One more factor a takes the power N - 2 to the power N - 1, where Fermat's identity speaks (R166). -/
theorem fmul_finv {a : Limbs} (ha : Canonical a) (hfermat : val a ^ (modulus - 1) % modulus = 1) :
    fmul a (finv a) = Rom.one := by
  have hexponent : modulus - 1 = modulus - 2 + 1 := by
    have hN := two_lt_modulus
    omega
  apply val_injective
  calc val (fmul a (finv a))
      = val a * val (finv a) % modulus := (fmul_spec a (finv a) ha).2
    _ = val a * val a ^ (modulus - 2) % modulus := by rw [val_finv ha, Nat.mul_mod_mod]
    _ = val a ^ (modulus - 1) % modulus := by rw [hexponent, pow_succ']
    _ = val Rom.one := by rw [hfermat, val_one]

namespace Machine

theorem exec_pow_wrap (sa : SrcA) (sb : SrcB) {s : State} (hbusy : s.status.busy = true)
    (hwrap : s.params.topLimb = .wrap) : exec (.pow sa sb) s = .next (completedWith (fpow s.la s.lb) s) :=
  exec_busy_plain (.pow sa sb) s (fpowT s.la s.lb) hbusy rfl nofun (.inl hwrap)

theorem exec_pow_canonical (sa : SrcA) (sb : SrcB) {s : State} (hbusy : s.status.busy = true)
    (ha : Canonical s.la) : exec (.pow sa sb) s = .next (completedWith (fpow s.la s.lb) s) :=
  exec_busy_canonical (.pow sa sb) s (fpowT s.la s.lb) hbusy ha rfl

theorem exec_inv_canonical (sa : SrcA) {s : State} (hbusy : s.status.busy = true) (ha : Canonical s.la) :
    exec (.inv sa) s = .next (completedWith (finv s.la) s) :=
  exec_busy_canonical (.inv sa) s (finvT s.la) hbusy ha rfl

/-- POW.AY.BY is accepted once Y holds a value, which is all it reads (R163, R35). -/
theorem exec_pow_regY_regY_idle {s : State} (hidle : s.status.busy = false) (hheld : s.yHeld = true) :
    exec (.pow .regY .regY) s = .next (latch (encode (.pow .regY .regY)) s) := by
  rw [exec_idle _ s hidle]
  exact accept_held _ s ⟨fun _ => hheld, fun _ => hheld⟩

@[simp] theorem completedWith_y (y : Limbs) (s : State) : (completedWith y s).y = y := rfl

theorem latch_pow_regY_regY_la (s : State) : (latch (encode (.pow .regY .regY)) s).la = s.y := rfl

theorem latch_pow_regY_regY_lb (s : State) : (latch (encode (.pow .regY .regY)) s).lb = s.y := rfl

/-- Settles O39: a canonical base meets no overflow, so the result is fpow's under either parameter; under wrap it is
fpow's for every base, and fpow is always canonical. -/
theorem powOfACanonicalBase : Obligations.PowOfACanonicalBase := by
  intro s sa sb hbusy
  constructor
  · intro ha
    exact ⟨_, exec_pow_canonical sa sb hbusy ha, val_fpow ha s.lb⟩
  · intro hwrap
    exact ⟨_, exec_pow_wrap sa sb hbusy hwrap, fpow_canonical s.la s.lb⟩

/-- Settles O40: under wrap POW completes with fpow, so each corner case is one of fpow; POW.AY.BY latches Y as base
and as exponent. -/
theorem powCornerCases : Obligations.PowCornerCases := by
  constructor
  · intro s sa sb hbusy hwrap
    rw [exec_pow_wrap sa sb hbusy hwrap]
    refine ⟨fun hb => ?_, fun hb ha => ?_, fun ha hb => ?_, fun ha => ?_, fun hb ha hfermat => ?_, fun _ ha => ?_⟩
    · rw [hb, fpow_exponent_zero]
    · rw [hb, fpow_exponent_one ha]
    · rw [ha, fpow_base_zero (val_ne_zero hb)]
    · rw [ha, fpow_base_one]
    · rw [fpow_exponent_fermat ha hb hfermat]
    · exact ⟨_, rfl, fpow_canonical s.la s.lb, val_fpow ha s.lb⟩
  · intro s hidle hheld hy
    refine ⟨_, _, exec_pow_regY_regY_idle hidle hheld, exec_pow_canonical .regY .regY rfl ?_, ?_⟩
    · rwa [latch_pow_regY_regY_la]
    · rw [completedWith_y, latch_pow_regY_regY_la, latch_pow_regY_regY_lb]
      exact ⟨fpow_canonical s.y s.y, val_fpow hy s.y⟩

/-- Settles O41: zero to the power N - 2, which is not zero, is zero; a canonical LA meets no overflow. -/
theorem invOfZeroIsZero : Obligations.InvOfZeroIsZero := by
  refine ⟨fun s sa hbusy ha => ?_, val_nm2_ne_zero⟩
  have hcanonical : Canonical s.la := by
    rw [ha]
    exact zero_canonical
  rw [exec_inv_canonical sa hbusy hcanonical, ha, finv_zero]

/-- Settles O42: INV of a canonical LA completes with finv, the power N - 2, which Fermat's identity makes an
inverse. -/
theorem invIsThePowerNMinusTwo : Obligations.InvIsThePowerNMinusTwo := by
  intro s sa hbusy ha
  exact ⟨_, exec_inv_canonical sa hbusy ha, val_finv ha, fmul_finv ha⟩

end Machine
end Sys2Proof
end

section
/-! SAMPLE and EQ (spec/44_sample_eq_const.md R180 to R187): the range and the fibres of sample, the comparison of feq,
and the steps that take a draw of ENTROPY. -/

namespace Sys2Proof

/-- Bit k of the 320 bits of a draw, byte 0 least significant (R181). -/
def drawBit (e : Draw) (k : Nat) : Bool := (e.toList.getD (k / 8) 0).getLsbD (k % 8)

theorem drawBit_eq_getElem (e : Draw) {k : Nat} (hk : k / 8 < 40) : drawBit e k = e[k / 8].getLsbD (k % 8) := by
  rw [drawBit, List.getD_eq_getElem _ _ (by simpa using hk), Vector.getElem_toList]

theorem drawBit_of_byte (e : Draw) {b j : Nat} (hb : b < 40) (hj : j < 8) :
    drawBit e (8 * b + j) = e[b].getLsbD j := by
  have hbyte : (8 * b + j) / 8 = b := by omega
  have hbit : (8 * b + j) % 8 = j := by omega
  rw [drawBit_eq_getElem e (by omega)]
  simp only [hbyte, hbit]

/-- Bit k of a result: the draw's below bit 318, and 0 from there on (R181, R183). -/
theorem val_sample_testBit (e : Draw) (k : Nat) :
    (val (sample e)).testBit k = (decide (k < 318) && drawBit e k) :=
  sample_testBit e k

theorem val_sample_lt (e : Draw) : val (sample e) < 2 ^ 318 := by
  apply Nat.lt_pow_two_of_testBit
  intro k hk
  rw [val_sample_testBit, decide_eq_false (Nat.not_lt.mpr hk), Bool.false_and]

/-- The draw whose 40 bytes spell v, byte 0 least significant. -/
def drawOf (v : Nat) : Draw := Vector.ofFn fun b => BitVec.ofNat 8 (v / 2 ^ (8 * b.val))

theorem drawBit_drawOf (v : Nat) {k : Nat} (hk : k < 318) : drawBit (drawOf v) k = v.testBit k := by
  have hbit : k % 8 < 8 := by omega
  rw [drawBit_eq_getElem _ (by omega), drawOf, Vector.getElem_ofFn, BitVec.getLsbD_ofNat, Nat.testBit_div_two_pow,
    Nat.mod_add_div, decide_eq_true hbit, Bool.true_and]

/-- sample reads v back from the draw that spells it, and clears nothing of it (R181). -/
theorem val_sample_drawOf {v : Nat} (hv : v < 2 ^ 318) : val (sample (drawOf v)) = v := by
  apply Nat.eq_of_testBit_eq
  intro k
  rw [val_sample_testBit]
  rcases Nat.lt_or_ge k 318 with hk | hk
  · rw [drawBit_drawOf v hk, decide_eq_true hk, Bool.true_and]
  · have hvk : v < 2 ^ k := hv.trans_le (by gcongr; exact one_le_two)
    rw [decide_eq_false (Nat.not_lt.mpr hk), Bool.false_and, Nat.testBit_lt_two_pow hvk]

/-- sample keeps the 318 low bits of a draw, and nothing else of it. -/
theorem sample_eq_iff_drawBit (e e' : Draw) : sample e = sample e' ↔ ∀ k < 318, drawBit e k = drawBit e' k := by
  constructor
  · intro h k hk
    have hbit : (val (sample e)).testBit k = (val (sample e')).testBit k := by rw [h]
    simpa [val_sample_testBit, hk] using hbit
  · intro h
    apply val_injective
    apply Nat.eq_of_testBit_eq
    intro k
    rw [val_sample_testBit, val_sample_testBit]
    by_cases hk : k < 318
    · rw [h k hk]
    · rw [decide_eq_false hk, Bool.false_and, Bool.false_and]

/-- The 318 low bits of a draw are the bytes below 39 and the six low bits of byte 39. -/
theorem drawBit_eq_iff_bytes (e e' : Draw) : (∀ k < 318, drawBit e k = drawBit e' k) ↔
    (∀ b : Fin 39, e[b.val] = e'[b.val]) ∧ e[39].extractLsb' 0 6 = e'[39].extractLsb' 0 6 := by
  constructor
  · intro h
    constructor
    · intro b
      apply BitVec.eq_of_getLsbD_eq
      intro j hj
      rw [← drawBit_of_byte e (by omega) hj, ← drawBit_of_byte e' (by omega) hj]
      exact h _ (by omega)
    · apply BitVec.eq_of_getLsbD_eq
      intro j hj
      have hbit : e[39].getLsbD j = e'[39].getLsbD j := by
        rw [← drawBit_of_byte e (by omega) (by omega), ← drawBit_of_byte e' (by omega) (by omega)]
        exact h _ (by omega)
      simp [hj, hbit]
  · rintro ⟨hbytes, htop⟩ k hk
    rw [drawBit_eq_getElem e (by omega), drawBit_eq_getElem e' (by omega)]
    by_cases hbyte : k / 8 < 39
    · rw [hbytes ⟨k / 8, hbyte⟩]
    · have h39 : k / 8 = 39 := by omega
      have hbit : k % 8 < 6 := by omega
      have h := congrArg (fun w : BitVec 6 => w.getLsbD (k % 8)) htop
      simpa [h39, hbit] using h

/-- EQ's flag is the equality of the limb vectors, not of the residues they stand for (R187). -/
theorem feq_eq_decide (a b : Limbs) : feq a b = decide (a = b) := by
  rw [Bool.eq_iff_iff, feq_iff, decide_eq_true_iff]

theorem feq_comm (a b : Limbs) : feq a b = feq b a := by
  rw [feq_eq_decide, feq_eq_decide, decide_eq_decide.mpr eq_comm]

theorem feq_iff_limbs (a b : Limbs) : feq a b = true ↔ ∀ k : Fin 10, a[k] = b[k] := by
  rw [feq_iff, Vector.ext_iff]
  exact ⟨fun h k => h k.val k.isLt, fun h k hk => h ⟨k, hk⟩⟩

namespace Machine

/-- Settles O44: bit 318 and up of every result are 0, every value below is spelt by a draw, and the fibres are read
off the bits that sample keeps. -/
theorem sampleRange : Obligations.SampleRange :=
  ⟨fun e => ⟨val_sample_lt e, (val_sample_lt e).trans lt_modulus⟩, fun v hv => ⟨drawOf v, val_sample_drawOf hv⟩,
    fun e e' => (sample_eq_iff_drawBit e e').trans (drawBit_eq_iff_bytes e e')⟩

/-- Settles O30: EQ completes with feq of the latches, which is their equality as limb vectors. -/
theorem eqComparesRepresentations : Obligations.EqComparesRepresentations := by
  refine ⟨fun s sa sb hbusy => ?_, fun a => (feq_iff a a).mpr rfl, feq_comm, feq_iff_limbs⟩
  rw [exec_busy_eq sa sb s hbusy, feq_eq_decide]
  rfl

/-- Settles O29, by whether an answer of ENTROPY is queued. -/
theorem sampleCompletes : Obligations.SampleCompletes := by
  intro s hbusy
  rw [exec_busy_sample s hbusy]
  constructor
  · intro e es hentropy
    rw [entropyDraw_cons hentropy, takeDraw_cons hentropy]
    rfl
  · intro hentropy
    refine ⟨entropyDraw s, ?_⟩
    rw [takeDraw_nil hentropy]
    rfl

/-- The draw of a step that has taken its event off the queue of events (R180). -/
theorem tookOneDraw_takeDraw (rest : List Event) (s : State) : TookOneDraw s (takeDraw (withInputs rest s)) := by
  cases hentropy : s.entropy with
  | cons e es =>
    have hqueued : (withInputs rest s).entropy = e :: es := hentropy
    rw [takeDraw_cons hqueued]
    exact .inl ⟨e, hentropy, rfl⟩
  | nil =>
    have hnone : (withInputs rest s).entropy = [] := hentropy
    rw [takeDraw_nil hnone]
    exact .inr ⟨hentropy, hentropy, rfl⟩

theorem step_of_isCoreTurn {s : State} {rest : List Event} (h : IsCoreTurn s rest) :
    step s = coreTurn (withInputs rest s) := by
  rcases h with hin | ⟨hin, rfl⟩
  · exact step_core s rest hin
  · rw [step_empty s hin, ← hin]
    rfl

/-- A core turn with SAMPLE in progress completes it and takes its draw (R180, R182). -/
theorem step_sample {s : State} {rest : List Event} (hin : IsCoreTurn s rest) (hbusy : s.status.busy = true)
    (hlop : s.lop = Op.sample.code) :
    step s = .next (completedWith (sample (entropyDraw s)) (takeDraw (withInputs rest s))) := by
  rw [step_of_isCoreTurn hin, coreTurn_op (withInputs rest s) .sample hbusy hlop]
  exact exec_busy_sample (withInputs rest s) hbusy

/-- Every step leaves the entropy and the count of draws as they are, or is the completion of SAMPLE (R180). -/
theorem StepEffect.entropy_cases {s t : State} (h : StepEffect s t) :
    (t.entropy = s.entropy ∧ t.draws = s.draws) ∨
      (s.status.busy = true ∧ s.lop = Op.sample.code ∧ t.status.done = true ∧ TookOneDraw s t) := by
  cases h with
  | completeY rest op r hin hbusy hop hlop hresult =>
    by_cases hsample : op = .sample
    · subst hsample
      exact .inr ⟨hbusy, hlop, rfl, tookOneDraw_takeDraw rest s⟩
    · left
      simp [beforeResult, hsample]
  | reset | idle | completeEq | read | writeA | writeB | writeStatus | commandWhileBusy | illegalCommand | accepted =>
    exact .inl ⟨by simp, by simp⟩

/-- Settles O51: the effects of a step give the first clause, and the step of a SAMPLE in progress the second. -/
theorem onlySampleDrawsEntropy : Obligations.OnlySampleDrawsEntropy := by
  intro s t hstep
  refine ⟨(stepEffect_of_step hstep).entropy_cases, fun hbusy hlop hinputs => ?_⟩
  obtain ⟨rest, hin⟩ : ∃ rest, IsCoreTurn s rest := by
    rcases hinputs with hempty | ⟨rest, hcore⟩
    · exact ⟨[], .inr ⟨hempty, rfl⟩⟩
    · exact ⟨rest, .inl hcore⟩
  rw [step_sample hin hbusy hlop] at hstep
  cases hstep
  exact tookOneDraw_takeDraw rest s

end Machine
end Sys2Proof
end

section
/-! Every fault of a step (spec/60_exceptions.md R203, R208, R202), as one case each: the counterpart of `StepEffect`
for the steps that stop, so that a claim about faults is a case split over `StepFault`. -/

namespace Sys2Proof.Machine

/-! ### The faults of the parts of a step -/

/-- A command reads a limb that holds no value exactly where one of its operands is missing (R208). -/
theorem exists_missingOperand_iff (i : Instr) (s : State) :
    (∃ r, missingOperand i s = some r) ↔ ¬ OperandsHeld i s := by
  rw [← missingOperand_none_iff, ← ne_eq, Option.ne_none_iff_exists']

/-- Acceptance stops exactly on a missing operand, and names it (R208). -/
theorem accept_fault_iff {i : Instr} {s : State} {f : Fault} :
    accept i s = .fault f ↔ ∃ r, missingOperand i s = some r ∧ f = .uninit r := by
  unfold accept
  cases missingOperand i s <;> simp [eq_comm]

/-- A submission stops exactly where its command would be accepted but for a missing operand (R200, R208). -/
theorem submit_fault_iff {w : Word} {s : State} {f : Fault} : submit w s = .fault f ↔
    s.status.busy = false ∧ ∃ i r, decode w = .ok i ∧ missingOperand i s = some r ∧ f = .uninit r := by
  unfold submit
  cases hbusy : s.status.busy with
  | true => simp
  | false =>
    cases decode w with
    | error e => simp
    | ok i => simp [exec_idle i s hbusy, accept_fault_iff]

/-- A write stops exactly where it reaches Y, or submits a command that stops (R203, R208). -/
theorem writeAccess_fault_iff {r : WindowReg} {addr : Nat} {v : Word} {s : State} {f : Fault} :
    writeAccess r addr v s = .fault f ↔
      (∃ k, r = .y k ∧ f = .busError addr 32) ∨ (r = .cmd ∧ submit v (respond .written s) = .fault f) := by
  cases r <;> simp [writeAccess, eq_comm]

/-- A core turn stops exactly on a latched value that is no opcode: a command in progress always completes (R202). -/
theorem coreTurn_fault_iff {s : State} {f : Fault} : coreTurn s = .fault f ↔
    s.status.busy = true ∧ opOfCode s.lop = none ∧ f = .latchedOpcode s.lop := by
  unfold coreTurn latchedInstr
  cases hbusy : s.status.busy with
  | false => simp
  | true =>
    cases opOfCode s.lop with
    | none => simp [eq_comm]
    | some op =>
      obtain ⟨t, ht, -⟩ := exec_busy_next (instrOfBits op s.lay (byField s.lastCmd)) s hbusy
      rw [instrOfBits] at ht
      simp [ht]

/-! ### The kinds of access -/

/-- An access is outside the window, or one that the block does not accept, or an aligned 32-bit read or write at an
offset of the window (R50, R52). -/
theorem access_kinds (p : Params) (x : BusAccess) :
    inWindow p x.addr = false ∨ (inWindow p x.addr = true ∧ accessAllowed x.addr x.width = false) ∨
    ∃ o, o < 0x80 ∧ o % 4 = 0 ∧ (Event.bus x = rd p o ∨ ∃ v, Event.bus x = wr p o v) := by
  cases hwin : inWindow p x.addr with
  | false => exact .inl rfl
  | true =>
    cases hallowed : accessAllowed x.addr x.width with
    | false => exact .inr (.inl ⟨rfl, rfl⟩)
    | true =>
      obtain ⟨hwidth, halign⟩ : x.width = 32 ∧ x.addr % 4 = 0 := by simpa [accessAllowed] using hallowed
      obtain ⟨o, haddr, hlt, hmod⟩ := offset_of_window hwin halign
      refine .inr (.inr ⟨o, hlt, hmod, ?_⟩)
      cases x with
      | read addr width => cases hwidth; cases haddr; exact .inl rfl
      | write addr width v => cases hwidth; cases haddr; exact .inr ⟨v, rfl⟩

/-- An access to the window that the block does not accept is a bus error (R203). -/
theorem busAccess_not_allowed {x : BusAccess} {s : State} (hwin : inWindow s.params x.addr = true)
    (h : accessAllowed x.addr x.width = false) : busAccess x s = .fault (.busError x.addr x.width) := by
  simp only [busAccess, hwin, h, Bool.not_true, Bool.not_false, Bool.false_eq_true, if_false, if_true]

/-! ### The faults of a step -/

/-- A read of a window register stops exactly where its register does (R35). -/
theorem step_rd_fault_iff {s : State} {rest : List Event} {o : Nat} {f : Fault}
    (hin : s.inputs = rd s.params o :: rest) (hlt : o < 0x80) (hmod : o % 4 = 0) :
    step s = .fault f ↔ readReg (windowReg o) s = .error f := by
  rw [step_rd s rest o hin hlt hmod, readAccess_fault_iff, readReg_withInputs]

/-- Which operand is missing does not depend on the events to come or on the last answer. -/
@[simp] theorem missingOperand_respond_withInputs (i : Instr) (x : BusResponse) (l : List Event) (s : State) :
    missingOperand i (respond x (withInputs l s)) = missingOperand i s := rfl

/-- The faults with which a step from `s` can stop, one constructor for each kind of step, with the guards it has. -/
inductive StepFault (s : State) : Fault → Prop
  /-- The core's turn finds a LOP that is no opcode (R202, log 13). -/
  | latchedOpcode (rest : List Event) (hin : IsCoreTurn s rest) (hbusy : s.status.busy = true)
      (hlop : opOfCode s.lop = none) : StepFault s (.latchedOpcode s.lop)
  /-- An access to the window of another width, or at an address that is not aligned (R203). -/
  | notAllowed (rest : List Event) (x : BusAccess) (hin : s.inputs = .bus x :: rest)
      (hwin : inWindow s.params x.addr = true) (hallowed : accessAllowed x.addr x.width = false) :
      StepFault s (.busError x.addr x.width)
  /-- A write to a limb of Y (R203). -/
  | writeY (rest : List Event) (k : Fin 10) (v : Word) (hin : s.inputs = wr s.params (0x50 + 4 * k.val) v :: rest) :
      StepFault s (.busError (s.params.mmBase + (0x50 + 4 * k.val)) 32)
  /-- A read of a limb of A that holds no value (R35). -/
  | readA (rest : List Event) (k : Fin 10) (hin : s.inputs = rd s.params (0x00 + 4 * k.val) :: rest)
      (hheld : s.aHeld[k] = false) : StepFault s (.uninit .A)
  /-- A read of a limb of B that holds no value (R35). -/
  | readB (rest : List Event) (k : Fin 10) (hin : s.inputs = rd s.params (0x28 + 4 * k.val) :: rest)
      (hheld : s.bHeld[k] = false) : StepFault s (.uninit .B)
  /-- A read of a limb of Y while Y holds no value (R35). -/
  | readY (rest : List Event) (k : Fin 10) (hin : s.inputs = rd s.params (0x50 + 4 * k.val) :: rest)
      (hheld : s.yHeld = false) : StepFault s (.uninit .Y)
  /-- A submission of a command that reads a limb holding no value (R208). -/
  | submitted (rest : List Event) (w : Word) (i : Instr) (r : DataReg) (hin : s.inputs = wr s.params 0x78 w :: rest)
      (hbusy : s.status.busy = false) (hdecode : decode w = .ok i) (hmissing : missingOperand i s = some r) :
      StepFault s (.uninit r)

theorem stepFault_of_rd {s : State} {rest : List Event} {o : Nat} {f : Fault}
    (hin : s.inputs = rd s.params o :: rest) (hlt : o < 0x80) (hmod : o % 4 = 0) (h : step s = .fault f) :
    StepFault s f := by
  rw [step_rd_fault_iff hin hlt hmod] at h
  rcases windowReg_cases hlt hmod with ⟨k, rfl, hreg⟩ | ⟨k, rfl, hreg⟩ | ⟨k, rfl, hreg⟩ | ⟨-, hreg⟩ | ⟨-, hreg⟩ <;>
    rw [hreg] at h
  · obtain ⟨hheld, rfl⟩ := readLimb_error_iff.mp h
    exact .readA rest k hin hheld
  · obtain ⟨hheld, rfl⟩ := readLimb_error_iff.mp h
    exact .readB rest k hin hheld
  · obtain ⟨hheld, rfl⟩ := readLimb_error_iff.mp h
    exact .readY rest k hin hheld
  · cases h
  · cases h

theorem stepFault_of_wr {s : State} {rest : List Event} {o : Nat} {v : Word} {f : Fault}
    (hin : s.inputs = wr s.params o v :: rest) (hlt : o < 0x80) (hmod : o % 4 = 0) (h : step s = .fault f) :
    StepFault s f := by
  rw [step_wr s rest o v hin hlt hmod, writeAccess_fault_iff] at h
  rcases windowReg_cases hlt hmod with ⟨k, rfl, hreg⟩ | ⟨k, rfl, hreg⟩ | ⟨k, rfl, hreg⟩ | ⟨rfl, hreg⟩ | ⟨-, hreg⟩ <;>
    rw [hreg] at h
  · simp at h
  · simp at h
  · obtain rfl : f = .busError (s.params.mmBase + (0x50 + 4 * k.val)) 32 := by simpa using h
    exact .writeY rest k v hin
  · obtain ⟨hbusy, i, r, hdecode, hmissing, rfl⟩ := submit_fault_iff.mp (by simpa using h)
    exact .submitted rest v i r hin hbusy hdecode hmissing
  · simp at h

theorem stepFault_of_step {s : State} {f : Fault} (h : step s = .fault f) : StepFault s f := by
  have hcore {rest : List Event} (hin : IsCoreTurn s rest) : StepFault s f := by
    rw [step_of_isCoreTurn hin] at h
    obtain ⟨hbusy, hlop, rfl⟩ := coreTurn_fault_iff.mp h
    exact .latchedOpcode rest hin hbusy hlop
  cases hin : s.inputs with
  | nil => exact hcore (.inr ⟨hin, rfl⟩)
  | cons e rest =>
    cases e with
    | core => exact hcore (.inl hin)
    | reset => rw [step_reset s rest hin] at h; cases h
    | bus x =>
      rcases access_kinds s.params x with hout | ⟨hwin, hallowed⟩ | ⟨o, hlt, hmod, hx | ⟨v, hx⟩⟩
      · rw [step_bus hin, busAccess_outside (s := withInputs rest s) hout] at h
        cases h
      · rw [step_bus hin, busAccess_not_allowed (s := withInputs rest s) hwin hallowed] at h
        cases h
        exact .notAllowed rest x hin hwin hallowed
      · exact stepFault_of_rd (hx ▸ hin) hlt hmod h
      · exact stepFault_of_wr (hx ▸ hin) hlt hmod h

theorem StepFault.step_eq {s : State} {f : Fault} (h : StepFault s f) : step s = .fault f := by
  cases h with
  | latchedOpcode rest hin hbusy hlop =>
    rw [step_of_isCoreTurn hin]
    exact coreTurn_fault_iff.mpr ⟨hbusy, hlop, rfl⟩
  | notAllowed rest x hin hwin hallowed =>
    rw [step_bus hin]
    exact busAccess_not_allowed hwin hallowed
  | writeY rest k v hin =>
    rw [step_wr s rest _ v hin (by omega) (by omega), writeAccess_fault_iff, windowReg_y]
    exact .inl ⟨k, rfl, rfl⟩
  | readA rest k hin hheld =>
    rw [step_rd_fault_iff hin (by omega) (by omega), windowReg_a]
    exact readLimb_error_iff.mpr ⟨hheld, rfl⟩
  | readB rest k hin hheld =>
    rw [step_rd_fault_iff hin (by omega) (by omega), windowReg_b]
    exact readLimb_error_iff.mpr ⟨hheld, rfl⟩
  | readY rest k hin hheld =>
    rw [step_rd_fault_iff hin (by omega) (by omega), windowReg_y]
    exact readLimb_error_iff.mpr ⟨hheld, rfl⟩
  | submitted rest w i r hin hbusy hdecode hmissing =>
    rw [step_submit s rest w hin]
    exact submit_fault_iff.mpr ⟨hbusy, i, r, hdecode, hmissing, rfl⟩

/-- A step stops with a fault exactly in the listed cases. -/
theorem step_fault_iff {s : State} {f : Fault} : step s = .fault f ↔ StepFault s f :=
  ⟨stepFault_of_step, StepFault.step_eq⟩

end Sys2Proof.Machine
end

section
/-! Where the faults are raised (spec/60_exceptions.md R202, R203, R208): each claim is a case split over
`StepFault`. -/

namespace Sys2Proof.Machine

/-! ### Bus errors -/

theorem accessAllowed_eq_false_iff {addr width : Nat} :
    accessAllowed addr width = false ↔ width ≠ 32 ∨ addr % 4 ≠ 0 := by
  simp only [accessAllowed, Bool.and_eq_false_iff, beq_eq_false_iff_ne]

/-- The window begins at a multiple of 4, so the limbs of Y stand at the aligned addresses between their ends (R51). -/
theorem limbOfY_of_aligned {p : Params} {addr : Nat} (halign : addr % 4 = 0) (hlo : p.mmBase + 0x50 ≤ addr)
    (hhi : addr < p.mmBase + 0x78) : ∃ k : Fin 10, addr = p.mmBase + (0x50 + 4 * k.val) := by
  unfold Params.mmBase at *
  exact ⟨⟨(addr - (128 * p.window + 0x50)) / 4, by omega⟩, by simp only; omega⟩

/-- Settles O14: an access that the block does not accept is a bus error, and of the accepted ones the writes to Y. -/
theorem busErrorAccesses : Obligations.BusErrorAccesses := by
  intro s rest x hin hlo hhi
  rw [step_fault_iff]
  constructor
  · intro h
    cases hallowed : accessAllowed x.addr x.width with
    | false =>
      have hwin : inWindow s.params x.addr = true := by simp [inWindow, hlo, hhi]
      exact .notAllowed rest x hin hwin hallowed
    | true =>
      obtain ⟨hwidth, halign⟩ : x.width = 32 ∧ x.addr % 4 = 0 := by simpa [accessAllowed] using hallowed
      obtain ⟨v, hx, hY, hYend⟩ := (h.resolve_left (not_not_intro hwidth)).resolve_left (not_not_intro halign)
      obtain ⟨k, hk⟩ := limbOfY_of_aligned halign hY hYend
      rw [hk] at hx
      subst hx
      exact .writeY rest k v hin
  · intro h
    generalize hf : Fault.busError x.addr x.width = f at h
    cases h with
    | notAllowed rest' x' hin' _ hallowed =>
      cases hin.symm.trans hin'
      exact or_assoc.mp (.inl (accessAllowed_eq_false_iff.mp hallowed))
    | writeY rest' k v hin' =>
      cases hin.symm.trans hin'
      refine .inr (.inr ⟨v, rfl, ?_⟩)
      simp only [BusAccess.addr]
      omega
    | latchedOpcode | readA | readB | readY | submitted => cases hf

/-! ### The UNINIT fault -/

/-- With BUSY = 0 a command stops exactly where an operand it reads misses a limb (R208). -/
theorem exec_idle_fault_iff {i : Instr} {s : State} (hidle : s.status.busy = false) :
    (∃ r, exec i s = .fault (.uninit r)) ↔ ¬ OperandsHeld i s := by
  rw [← exists_missingOperand_iff, exec_idle i s hidle]
  simp [accept_fault_iff]

/-- With BUSY = 0 a command is accepted exactly where its operands hold values (R200). -/
theorem exec_idle_next_iff {i : Instr} {s : State} (hidle : s.status.busy = false) :
    (∃ t, exec i s = .next t) ↔ OperandsHeld i s := by
  constructor
  · rintro ⟨t, ht⟩
    by_contra hheld
    obtain ⟨r, hr⟩ := (exec_idle_fault_iff hidle).mpr hheld
    cases ht.symm.trans hr
  · intro hheld
    exact ⟨_, (exec_idle i s hidle).trans (accept_held i s hheld)⟩

/-- Settles O22: the reads by the register at their offset, the commands by their acceptance, and the steps by the
cases of `StepFault`. -/
theorem uninitFaults : Obligations.UninitFaults := by
  refine ⟨fun s rest k => ⟨fun hin => ?_, fun hin => ?_, fun hin => ?_⟩,
    fun s i hidle => ⟨(exec_idle_fault_iff hidle).symm, (exec_idle_next_iff hidle).symm⟩,
    fun s => ⟨?_, ?_⟩⟩
  · rw [step_rd_fault_iff hin (by omega) (by omega), windowReg_a]
    exact readLimb_error_iff.trans (and_iff_left rfl)
  · rw [step_rd_fault_iff hin (by omega) (by omega), windowReg_b]
    exact readLimb_error_iff.trans (and_iff_left rfl)
  · rw [step_rd_fault_iff hin (by omega) (by omega), windowReg_y]
    exact readLimb_error_iff.trans (and_iff_left rfl)
  · rintro ⟨r, h⟩
    cases step_fault_iff.mp h with
    | readA rest k hin hheld => exact .inl ⟨rest, k, .inl ⟨hin, hheld⟩⟩
    | readB rest k hin hheld => exact .inl ⟨rest, k, .inr (.inl ⟨hin, hheld⟩)⟩
    | readY rest k hin hheld => exact .inl ⟨rest, k, .inr (.inr ⟨hin, hheld⟩)⟩
    | submitted rest w i _ hin hbusy hdecode hmissing =>
      exact .inr ⟨rest, w, i, hin, hbusy, hdecode, (exists_missingOperand_iff i s).mp ⟨r, hmissing⟩⟩
  · rintro (⟨rest, k, ⟨hin, hheld⟩ | ⟨hin, hheld⟩ | ⟨hin, hheld⟩⟩ | ⟨rest, w, i, hin, hbusy, hdecode, hheld⟩)
    · exact ⟨_, (StepFault.readA rest k hin hheld).step_eq⟩
    · exact ⟨_, (StepFault.readB rest k hin hheld).step_eq⟩
    · exact ⟨_, (StepFault.readY rest k hin hheld).step_eq⟩
    · obtain ⟨r, hmissing⟩ := (exists_missingOperand_iff i s).mpr hheld
      exact ⟨r, (StepFault.submitted rest w i r hin hbusy hdecode hmissing).step_eq⟩

/-! ### The latched opcode -/

/-- Settles O54: the fault needs a LOP that is no opcode, and a legal state with BUSY = 1 has an opcode there. -/
theorem latchedOpcodeIsAlwaysKnown : Obligations.LatchedOpcodeIsAlwaysKnown := by
  intro s lop hlegal h
  cases step_fault_iff.mp h with
  | latchedOpcode rest hin hbusy hnone =>
    obtain ⟨op, hop⟩ := legal_lop hlegal hbusy
    rw [hop, opOfCode_code] at hnone
    cases hnone

end Sys2Proof.Machine
end

section
/-! Submission and the core's turn (spec/60_exceptions.md R200 to R206), each as one equation of `step`. -/

namespace Sys2Proof.Machine

/-! ### What a step runs -/

/-- With BUSY = 0 the submission of a word that decodes to i is the step of i (R200). -/
theorem submit_idle {w : Word} {i : Instr} {s : State} (hidle : s.status.busy = false) (hdecode : decode w = .ok i) :
    submit w s = exec i s := by
  simp only [submit, hidle, hdecode, Bool.false_eq_true, if_false]

/-- With BUSY = 1 and LOP an opcode the core's turn is the step of a command of that opcode (R201, R202). -/
theorem step_core_op {s : State} {rest : List Event} {op : Op} (hin : IsCoreTurn s rest)
    (hbusy : s.status.busy = true) (hlop : s.lop = op.code) :
    step s = exec (instrOfBits op s.lay (byField s.lastCmd)) (withInputs rest s) := by
  rw [step_of_isCoreTurn hin]
  exact coreTurn_op (withInputs rest s) op hbusy hlop

/-- The same at an empty queue, where the state holds no event to take off (log 7). -/
theorem step_empty_op {s : State} {op : Op} (hin : s.inputs = []) (hbusy : s.status.busy = true)
    (hlop : s.lop = op.code) : step s = exec (instrOfBits op s.lay (byField s.lastCmd)) s := by
  rw [step_empty s hin]
  exact coreTurn_op s op hbusy hlop

theorem coreTurn_idle {s : State} (hidle : s.status.busy = false) : coreTurn s = .next s := by
  simp only [coreTurn, hidle, Bool.false_eq_true, if_false]

/-- Settles O18: a CMD write is a submission, and the core's turn runs the command of the opcode in LOP. -/
theorem stepRunsTheDecodedCommand : Obligations.StepRunsTheDecodedCommand := by
  refine ⟨fun s rest w i hin hidle hdecode => ?_, fun s rest op hbusy hlop => ?_⟩
  · rw [step_submit s rest w hin]
    exact submit_idle hidle hdecode
  · exact ⟨_, instrOfBits_op op _ _, fun hin => step_core_op (.inl hin) hbusy hlop,
      fun hin => step_empty_op hin hbusy hlop⟩

/-- Settles O20: the submission only raises CMD_WHILE_BUSY. -/
theorem commandWhileBusyIsDropped : Obligations.CommandWhileBusyIsDropped := by
  intro s rest w hin hbusy
  rw [step_submit s rest w hin]
  have hwritten : (respond .written (withInputs rest s)).status.busy = true := hbusy
  exact (submit_busy w hwritten).trans (congrArg Host.Outcome.next (raiseError_eq codeCmdWhileBusy _))

/-- Settles O21: the two cases of raise, and the write of bit 3 to STATUS. -/
theorem firstErrorIsKept : Obligations.FirstErrorIsKept := by
  refine ⟨fun s code herr => ?_, fun s code herr => ?_, fun s rest v hin hbit => ?_⟩
  · simp only [raiseError_eq, herr, Bool.false_eq_true, if_false]
  · rw [raiseError, Status.raise, if_pos herr]
  · refine ⟨_, step_writeStatus hin, ?_⟩
    rw [writeStatus_of_bit3 hbit]
    exact ⟨rfl, rfl⟩

/-- Settles O23: with BUSY = 0 the core's turn passes. -/
theorem coreIsIdleWithoutACommand : Obligations.CoreIsIdleWithoutACommand := by
  intro s hidle
  refine ⟨fun rest hin => ?_, fun hin => ?_⟩
  · rw [step_core s rest hin]
    exact coreTurn_idle hidle
  · rw [step_empty s hin, coreTurn_idle hidle]

/-! ### Completion -/

section beforeResultFrame
variable (op : Op) (s : State)
@[simp] theorem beforeResult_la : (beforeResult op s).la = s.la := by rw [beforeResult_eq]
@[simp] theorem beforeResult_lb : (beforeResult op s).lb = s.lb := by rw [beforeResult_eq]
@[simp] theorem beforeResult_aHeld : (beforeResult op s).aHeld = s.aHeld := by rw [beforeResult_eq]
@[simp] theorem beforeResult_bHeld : (beforeResult op s).bHeld = s.bHeld := by rw [beforeResult_eq]
@[simp] theorem beforeResult_params : (beforeResult op s).params = s.params := by rw [beforeResult_eq]
@[simp] theorem beforeResult_inputs : (beforeResult op s).inputs = s.inputs := by rw [beforeResult_eq]
@[simp] theorem beforeResult_response : (beforeResult op s).response = s.response := by rw [beforeResult_eq]
end beforeResultFrame

/-- A command other than SAMPLE takes no draw before its result (R180). -/
theorem beforeResult_of_ne_sample {op : Op} (h : op ≠ .sample) (s : State) : beforeResult op s = s := if_neg h

/-- Settles O47, by the two forms of a completion: the flag of EQ, or a result in Y after a draw of SAMPLE. -/
theorem completionFrame : Obligations.CompletionFrame := by
  intro i s t hbusy h
  rcases exec_busy_cases i s hbusy with ⟨hop, hexec⟩ | ⟨hop, r, -, hexec⟩
  · obtain rfl := Host.Outcome.next.inj (hexec.symm.trans h)
    simp [hop]
  · obtain rfl := Host.Outcome.next.inj (hexec.symm.trans h)
    simp +contextual [hop, beforeResult_of_ne_sample]

/-- Settles O24: a legal state has an opcode in LOP, and every command in progress completes. -/
theorem emptyQueueCompletesTheCommand : Obligations.EmptyQueueCompletesTheCommand := by
  intro s hlegal hbusy hin
  obtain ⟨op, hop⟩ := legal_lop hlegal hbusy
  rw [step_empty_op hin hbusy hop]
  exact exec_busy_next _ s hbusy

/-- Under TOPLIMB_OVERFLOW = wrap a command that writes Y and takes no draw completes with its datapath value (R202). -/
theorem step_empty_plain {s : State} (op : Op) {r : Tracked} (hin : s.inputs = []) (hbusy : s.status.busy = true)
    (hwrap : s.params.topLimb = .wrap) (hlop : s.lop = op.code)
    (hr : resultOf op s.la s.lb (entropyDraw s) = some r) (hsample : op ≠ .sample) :
    step s = .next (completedWith r.value s) := by
  rw [step_empty_op hin hbusy hlop]
  exact exec_busy_plain _ s r hbusy ((instrOfBits_op op _ _).symm ▸ hr) ((instrOfBits_op op _ _).symm ▸ hsample)
    (.inl hwrap)

/-- Settles O25: one use of the completion for each opcode; EQ writes its flag, and SAMPLE takes its draw. -/
theorem completionByOpcode : Obligations.CompletionByOpcode := by
  intro s hbusy hin hwrap
  have hplain (op : Op) {r : Tracked} (hr : resultOf op s.la s.lb (entropyDraw s) = some r) (hsample : op ≠ .sample)
      (hlop : s.lop = op.code) : step s = .next (completedWith r.value s) :=
    step_empty_plain op hin hbusy hwrap hlop hr hsample
  have hstep {op : Op} (hlop : s.lop = op.code) := step_empty_op hin hbusy hlop
  obtain ⟨hqueued, hfree⟩ := sampleCompletes s hbusy
  refine ⟨hplain .montMul rfl nofun, hplain .toMont rfl nofun, hplain .fromMont rfl nofun, hplain .add rfl nofun,
    hplain .sub rfl nofun, hplain .mul (r := fmulT s.la s.lb) rfl nofun, hplain .pow rfl nofun,
    hplain .inv rfl nofun, fun hlop => ?_, fun hlop e es hentropy => ?_, fun hlop hentropy => ?_,
    hplain .ldzero rfl nofun, hplain .ldone rfl nofun⟩
  · exact (hstep (op := .eq) hlop).trans (exec_busy_eq _ _ s hbusy)
  · exact (hstep (op := .sample) hlop).trans (hqueued e es hentropy)
  · obtain ⟨e, he⟩ := hfree hentropy
    exact ⟨e, (hstep (op := .sample) hlop).trans he⟩

/-! ### From submission to result -/

theorem run_one (s : State) : run 1 s = step s := by
  simp only [run, Host.Core.run, Sys2Proof.core]
  cases step s <;> rfl

/-- The state in which i has been accepted from s, with no event left in the queue (R200). -/
def submitted (i : Instr) (s : State) : State := latch (encode i) (respond .written (withInputs [] s))

theorem submitted_la (i : Instr) (s : State) : (submitted i s).la = if i.ay then s.y else s.a := by
  simp [submitted, encode, operandA]

theorem submitted_lb (i : Instr) (s : State) : (submitted i s).lb = if i.byBit then s.y else s.b := by
  simp [submitted, encode, operandB]

/-- A command that is submitted and then given the core's turn is accepted and completes: each phase is one step of
exec (R200, R202). -/
theorem run_submitted {i : Instr} {s : State} (hin : s.inputs = [cmd s.params i, .core])
    (hidle : s.status.busy = false) (hheld : OperandsHeld i s) : run 2 s = exec i (submitted i s) := by
  have haccept : step s = .next (latch (encode i) (respond .written (withInputs [.core] s))) := by
    rw [step_submit s [.core] (encode i) hin]
    exact submit_accepted hidle (decode_encode i) hheld
  rw [run_succ haccept, run_one, step_core_op (rest := []) (op := i.op) (.inl rfl) rfl (by simp [encode])]
  simp only [latch_lay, latch_lastCmd, encode, ayField_encodeFields, byField_encodeFields, instrOfBits_of_instr]
  rfl

/-- Settles O31: the completion finds in its latches the registers that AY and BY named at submission. -/
theorem submittedCommandYieldsItsResult : Obligations.SubmittedCommandYieldsItsResult := by
  refine ⟨fun s i r hin hidle hheld hplain hr => ?_, fun s sa sb hin hidle hheld => ?_⟩
  · rw [← submitted_la, ← submitted_lb] at hr
    rw [run_submitted hin hidle hheld, exec_busy i (submitted i s) r rfl hr,
      completeY_plain (by simpa [submitted] using hplain)]
    refine ⟨_, rfl, rfl, ?_⟩
    simp [completedWith, submitted, Status.accept]
  · rw [run_submitted hin hidle hheld, exec_busy_eq sa sb _ rfl, submitted_la, submitted_lb, feq_eq_decide]
    exact ⟨_, rfl, rfl, rfl, rfl, rfl, rfl, rfl⟩

end Sys2Proof.Machine
end

section
/-! The host while a command runs (spec/20_memory.md R62, spec/60_exceptions.md R201, R206,
spec/70_reset_and_hazards.md R243): what its accesses change is a part of the state that the completion
neither looks at nor changes. -/

namespace Sys2Proof.Machine

/-- s without what the host can write and read while a command is in progress: A, B, the error record, the events to
come and the last answer (R201, R206). -/
def withoutHost (s : State) : State :=
  { s with
    a := Rom.zero
    b := Rom.zero
    aHeld := Vector.replicate 10 false
    bHeld := Vector.replicate 10 false
    inputs := []
    response := .none
    status := { s.status with err := false, errCode := 0 } }

theorem withoutHost_raiseError (code : BitVec 4) (s : State) : withoutHost (raiseError code s) = withoutHost s := by
  rw [raiseError_eq]
  rfl

theorem withoutHost_writeStatus (v : Word) (s : State) : withoutHost (writeStatus v s) = withoutHost s := by
  cases hbit : v.getLsbD 3 with
  | true =>
    rw [writeStatus_of_bit3 hbit]
    rfl
  | false => rw [writeStatus_of_not_bit3 hbit]

/-- With BUSY = 1 an accepted access changes the host's part alone (R62, R206, R243). -/
theorem withoutHost_of_busAccess {x : BusAccess} {s t : State} (hbusy : s.status.busy = true)
    (h : busAccess x s = .next t) : withoutHost t = withoutHost s ∧ t.inputs = s.inputs := by
  rcases busAccess_cases h with ⟨_, _, _, rfl⟩ | ⟨_, _, _, rfl⟩ | ⟨_, _, _, rfl⟩ | ⟨w, _, hsubmit⟩ | ⟨v, _, rfl⟩
  · exact ⟨rfl, rfl⟩
  · exact ⟨rfl, rfl⟩
  · exact ⟨rfl, rfl⟩
  · obtain rfl := Host.Outcome.next.inj ((submit_busy w (by simpa using hbusy)).symm.trans hsubmit)
    exact ⟨withoutHost_raiseError codeCmdWhileBusy (respond .written s), rfl⟩
  · exact ⟨withoutHost_writeStatus v s, rfl⟩

/-- A run that answers a next state, taken apart at its first step. -/
theorem step_of_run_succ {k : Nat} {s t : State} (h : run (k + 1) s = .next t) :
    ∃ u, step s = .next u ∧ run k u = .next t := by
  cases hstep : step s with
  | next u => exact ⟨u, rfl, (run_succ hstep).symm.trans h⟩
  | fault f => simp [run, Host.Core.run, Sys2Proof.core, hstep] at h
  | refused f => simp [run, Host.Core.run, Sys2Proof.core, hstep] at h

/-- Every run keeps the control state legal (R202, R210). -/
theorem legal_of_run {k : Nat} {s t : State} (hlegal : Legal s) (h : run k s = .next t) : Legal t := by
  induction k generalizing s with
  | zero =>
    cases h
    exact hlegal
  | succ k ih =>
    obtain ⟨u, hstep, hrun⟩ := step_of_run_succ h
    exact ih (stepKeepsTheControlStateLegal s u hlegal hstep) hrun

/-- With BUSY = 1 any run of accepted accesses changes the host's part alone, and uses up the queue. -/
theorem withoutHost_of_run (xs : List BusAccess) {s t : State} (hbusy : s.status.busy = true)
    (hin : s.inputs = xs.map Event.bus) (h : run xs.length s = .next t) :
    withoutHost t = withoutHost s ∧ t.inputs = [] := by
  induction xs generalizing s with
  | nil =>
    cases h
    exact ⟨rfl, hin⟩
  | cons x xs ih =>
    obtain ⟨u, hstep, hrun⟩ := step_of_run_succ h
    rw [step_bus hin] at hstep
    obtain ⟨hu, huin⟩ := withoutHost_of_busAccess (by simpa using hbusy) hstep
    have hubusy : u.status.busy = s.status.busy := congrArg (·.status.busy) hu
    obtain ⟨ht, htin⟩ := ih (hubusy.trans hbusy) huin hrun
    exact ⟨ht.trans hu, htin⟩

theorem withoutHost_takeDraw (s : State) : withoutHost (takeDraw s) = takeDraw (withoutHost s) := by
  cases hentropy : s.entropy with
  | nil =>
    rw [takeDraw_nil hentropy, takeDraw_nil (s := withoutHost s) hentropy]
    rfl
  | cons e es =>
    rw [takeDraw_cons hentropy, takeDraw_cons (s := withoutHost s) hentropy]
    rfl

theorem withoutHost_beforeResult (op : Op) (s : State) :
    withoutHost (beforeResult op s) = beforeResult op (withoutHost s) := by
  unfold beforeResult
  split
  · exact withoutHost_takeDraw s
  · rfl

/-- The core's turn neither looks at the host's part nor changes it: it commutes with leaving that out (R201). -/
theorem coreTurn_withoutHost {s t : State} (h : coreTurn s = .next t) :
    coreTurn (withoutHost s) = .next (withoutHost t) := by
  rcases coreTurn_cases h with ⟨hidle, rfl⟩ | ⟨hbusy, hlop, rfl⟩ | ⟨hbusy, op, r, -, hlop, hr, rfl⟩
  · exact coreTurn_idle hidle
  · rw [coreTurn_op (withoutHost s) .eq hbusy hlop]
    exact exec_busy_eq _ _ (withoutHost s) hbusy
  · rw [coreTurn_op (withoutHost s) op hbusy hlop,
      exec_busy _ (withoutHost s) r hbusy ((ofOp_op op _ _).symm ▸ hr), ofOp_op, ← withoutHost_beforeResult]
    rfl

theorem coreTurn_lastCmd {s t : State} (h : coreTurn s = .next t) : t.lastCmd = s.lastCmd := by
  rcases coreTurn_cases h with ⟨-, rfl⟩ | ⟨-, -, rfl⟩ | ⟨-, op, r, -, -, -, rfl⟩
  · rfl
  · rfl
  · simp

/-- Settles O32: the accesses change the host's part alone, and the core's turn does not look at it. -/
theorem hostAccessesDoNotChangeTheResult : Obligations.HostAccessesDoNotChangeTheResult := by
  intro xs s t hlegal hbusy hin hrun
  obtain ⟨ht, htin⟩ := withoutHost_of_run xs hbusy hin hrun
  have htbusy : t.status.busy = s.status.busy := congrArg (·.status.busy) ht
  have hlegalAtOnce : Legal (withInputs [] s) := hlegal.of_same_command hlegal.legalStatus id rfl rfl rfl
  obtain ⟨u, hu, -⟩ := emptyQueueCompletesTheCommand (withInputs [] s) hlegalAtOnce hbusy rfl
  obtain ⟨v, hv, hvbusy, hvdone⟩ :=
    emptyQueueCompletesTheCommand t (legal_of_run hlegal hrun) (htbusy.trans hbusy) htin
  have huTurn : coreTurn (withInputs [] s) = .next u := hu
  have hvTurn : coreTurn t = .next v := (step_empty t htin).symm.trans hv
  have hsame : withoutHost v = withoutHost u := by
    apply Host.Outcome.next.inj
    calc Host.Outcome.next (withoutHost v)
        = coreTurn (withoutHost t) := (coreTurn_withoutHost hvTurn).symm
      _ = coreTurn (withoutHost (withInputs [] s)) := congrArg coreTurn ht
      _ = .next (withoutHost u) := coreTurn_withoutHost huTurn
  have hlast : u.lastCmd = (withInputs [] s).lastCmd := coreTurn_lastCmd huTurn
  exact ⟨u, v, hu, hv, congrArg (·.y) hsame, congrArg (·.status.eq) hsame, hvbusy, hvdone,
    (congrArg (·.lastCmd) hsame).trans hlast, congrArg (·.entropy) hsame, congrArg (·.draws) hsame,
    congrArg (·.freeDraws) hsame⟩

end Sys2Proof.Machine
end

section
/-! Reset (spec/70_reset_and_hazards.md R230 to R232): the data registers under each value of DATA_RESET, the
invariant that every limb holds a value, and the latches, which no step with BUSY = 0 shows. -/

namespace Sys2Proof.Machine

/-! ### The state after a reset -/

/-- Settles O52: it is the base case of the invariant `Legal`. -/
theorem resetIsLegal : Obligations.ResetIsLegal := legal_resetWith

/-- Settles O3: a reset does not look at BUSY or at the command in progress. -/
theorem resetAbandonsTheCommand : Obligations.ResetAbandonsTheCommand :=
  fun s rest hin => step_reset s rest hin

/-- STATUS reads 0x00000000 after a reset (R231). -/
theorem status_word_reset : Status.reset.word = 0x00000000 := by decide

/-! ### The data registers after a reset -/

section resetWith
variable (p : Params)
@[simp] theorem resetWith_a : (State.resetWith p).a = Vector.replicate 10 0 := rfl
@[simp] theorem resetWith_b : (State.resetWith p).b = Vector.replicate 10 0 := rfl
@[simp] theorem resetWith_y : (State.resetWith p).y = Vector.replicate 10 0 := rfl
@[simp] theorem resetWith_aHeld : (State.resetWith p).aHeld = Vector.replicate 10 (p.dataReset == .zero) := rfl
@[simp] theorem resetWith_bHeld : (State.resetWith p).bHeld = Vector.replicate 10 (p.dataReset == .zero) := rfl
@[simp] theorem resetWith_yHeld : (State.resetWith p).yHeld = (p.dataReset == .zero) := rfl
end resetWith

/-- After a reset every limb holds a value, or none does (R230). -/
theorem allHeld_resetWith_iff (p : Params) : AllHeld (State.resetWith p) ↔ p.dataReset = .zero := by
  simp [AllHeld]

/-- A command that reads an operand finds no value in operand a after a reset under DATA_RESET = unspecified. -/
theorem not_operandsHeld_resetWith {p : Params} {i : Instr} (hdata : p.dataReset = .unspecified)
    (hreads : i.op.readsA = true) : ¬ OperandsHeld i (State.resetWith p) := by
  rintro ⟨hheld, -⟩
  cases hay : i.ay <;> simp [hay, hdata, hreads] at hheld

/-- Settles O2: zero limbs that hold a value are read, and where none holds one every read and every operand stops. -/
theorem resetDataFollowsTheParameter : Obligations.ResetDataFollowsTheParameter := by
  refine ⟨fun p hdata k => ?_, fun p hdata => ⟨fun k => ?_, fun i hreads => ?_⟩⟩
  · obtain ⟨ha, hb, hy⟩ := (allHeld_resetWith_iff p).mpr hdata
    rw [readReg_a_held (ha k), readReg_b_held (hb k), readReg_y_held k hy]
    simp
  · exact ⟨readLimb_error_iff.mpr ⟨by simp [hdata], rfl⟩, readLimb_error_iff.mpr ⟨by simp [hdata], rfl⟩,
      readLimb_error_iff.mpr ⟨by simp [hdata], rfl⟩⟩
  · exact (exec_idle_fault_iff rfl).mpr (not_operandsHeld_resetWith hdata hreads)

/-! ### Every limb holds a value -/

/-- Marking limb k as held leaves no limb unmarked. -/
theorem held_set_true {held : Vector Bool 10} (h : ∀ i : Fin 10, held[i] = true) (k i : Fin 10) :
    (held.set k true)[i] = true := by
  by_cases hik : i = k
  · subst hik
    simp
  · rw [set_getElem_fin_ne hik]
    exact h i

theorem AllHeld.operandsHeld {s : State} (h : AllHeld s) (i : Instr) : OperandsHeld i s := by
  obtain ⟨ha, hb, hy⟩ := h
  refine ⟨fun _ => ?_, fun _ => ?_⟩
  · split
    · exact hy
    · exact ha
  · split
    · exact hy
    · exact hb

/-- No step changes the parameters (R12). -/
theorem StepEffect.params_eq {s t : State} (he : StepEffect s t) : t.params = s.params := by
  cases he with
  | completeY => simp
  | reset | idle | completeEq | read | writeA | writeB | writeStatus | commandWhileBusy | illegalCommand
  | accepted => rfl

/-- No step but a reset under DATA_RESET = unspecified takes a value away from a limb (R35, R230). -/
theorem StepEffect.allHeld {s t : State} (hdata : s.params.dataReset = .zero) (h : AllHeld s) (he : StepEffect s t) :
    AllHeld t := by
  cases he with
  | reset => exact (allHeld_resetWith_iff s.params).mpr hdata
  | completeY =>
    obtain ⟨ha, hb, -⟩ := h
    exact ⟨by simpa using ha, by simpa using hb, rfl⟩
  | writeA _ k =>
    obtain ⟨ha, hb, hy⟩ := h
    exact ⟨held_set_true ha k, hb, hy⟩
  | writeB _ k =>
    obtain ⟨ha, hb, hy⟩ := h
    exact ⟨ha, held_set_true hb k, hy⟩
  | idle | completeEq | read | writeStatus | commandWhileBusy | illegalCommand | accepted => exact h

theorem AllHeld.step_ne_uninit {s : State} (h : AllHeld s) (r : DataReg) : step s ≠ .fault (.uninit r) := by
  intro hstep
  have hoperands := h.operandsHeld
  obtain ⟨ha, hb, hy⟩ := h
  cases step_fault_iff.mp hstep with
  | readA _ k _ hheld => exact absurd (ha k) (by simp [hheld])
  | readB _ k _ hheld => exact absurd (hb k) (by simp [hheld])
  | readY _ _ _ hheld => exact absurd hy (by simp [hheld])
  | submitted _ _ i _ _ _ _ hmissing => exact (exists_missingOperand_iff i s).mp ⟨r, hmissing⟩ (hoperands i)

/-- Settles O55: reset gives every limb a value, the cases of `StepEffect` keep that, and those of `StepFault` that
are UNINIT need a limb without one. -/
theorem zeroResetNeverMeetsUninit : Obligations.ZeroResetNeverMeetsUninit :=
  ⟨fun p hdata => (allHeld_resetWith_iff p).mpr hdata,
    fun _ _ hdata h hstep => ⟨(stepEffect_of_step hstep).allHeld hdata h, (stepEffect_of_step hstep).params_eq⟩,
    fun _ r h => h.step_ne_uninit r⟩

/-! ### The latches while BUSY = 0 -/

/-- s with other values in its latches (R231). -/
def withLatches (la lb : Limbs) (lop : BitVec 5) (lay : Bool) (s : State) : State :=
  { s with la := la, lb := lb, lop := lop, lay := lay }

/-- Two outcomes that differ in nothing but the latches of a next state, and not in those where it has a command in
progress, whose completion would show them. -/
inductive AlikeButLatches : Result → Result → Prop
  | next {t t' : State} (hsame : SameButLatches t t') (haccepted : t.status.busy = true → t' = t) :
      AlikeButLatches (.next t) (.next t')
  | fault (f : Fault) : AlikeButLatches (.fault f) (.fault f)
  | refused (r : Refusal) : AlikeButLatches (.refused r) (.refused r)

theorem AlikeButLatches.next_inv {t : State} {o : Result} (h : AlikeButLatches (.next t) o) :
    ∃ t', o = .next t' ∧ SameButLatches t t' ∧ (t.status.busy = true → t' = t) := by
  cases h with
  | next hsame haccepted => exact ⟨_, rfl, hsame, haccepted⟩

theorem AlikeButLatches.fault_inv {f : Fault} {o : Result} (h : AlikeButLatches (.fault f) o) : o = .fault f := by
  cases h
  rfl

theorem AlikeButLatches.refused_inv {r : Refusal} {o : Result} (h : AlikeButLatches (.refused r) o) :
    o = .refused r := by
  cases h
  rfl

theorem AlikeButLatches.refl (o : Result) : AlikeButLatches o o := by
  cases o with
  | next t => exact .next rfl fun _ => rfl
  | fault f => exact .fault f
  | refused r => exact .refused r

section latches
variable {s : State} {la lb : Limbs} {lop : BitVec 5} {lay : Bool}

/-- A next state with BUSY = 0 may keep the latches. -/
theorem alike_next_of_idle {t : State} (hidle : t.status.busy = false) :
    AlikeButLatches (.next t) (.next (withLatches la lb lop lay t)) :=
  .next rfl fun hbusy => nomatch hidle.symm.trans hbusy

/-- The registers of the window do not show the latches. -/
theorem readReg_withLatches (r : WindowReg) : readReg r (withLatches la lb lop lay s) = readReg r s := by
  cases r <;> rfl

/-- Acceptance looks at no latch and writes each of them (R33). -/
theorem accept_withLatches (i : Instr) : accept i (withLatches la lb lop lay s) = accept i s := rfl

variable (hidle : s.status.busy = false)
include hidle

/-- An illegal word leaves the latches, and acceptance writes them anew (R204, R33). -/
theorem submit_alike (w : Word) : AlikeButLatches (submit w s) (submit w (withLatches la lb lop lay s)) := by
  have hidle' : (withLatches la lb lop lay s).status.busy = false := hidle
  cases hdecode : decode w with
  | error e =>
    simp only [submit, hidle, hidle', hdecode, Bool.false_eq_true, if_false]
    exact alike_next_of_idle (by simpa using hidle)
  | ok i =>
    rw [submit_idle hidle hdecode, submit_idle hidle' hdecode, exec_idle i s hidle, exec_idle i _ hidle',
      accept_withLatches]
    exact .refl _

theorem readAccess_alike (r : WindowReg) :
    AlikeButLatches (readAccess r s) (readAccess r (withLatches la lb lop lay s)) := by
  rw [readAccess, readAccess, readReg_withLatches]
  cases readReg r s with
  | ok v => exact alike_next_of_idle (t := respond (.value v) s) hidle
  | error f => exact .fault f

theorem writeAccess_alike (r : WindowReg) (addr : Nat) (v : Word) :
    AlikeButLatches (writeAccess r addr v s) (writeAccess r addr v (withLatches la lb lop lay s)) := by
  cases r with
  | a k => exact alike_next_of_idle (t := respond .written (writeA k v s)) hidle
  | b k => exact alike_next_of_idle (t := respond .written (writeB k v s)) hidle
  | y k => exact .fault _
  | cmd => exact submit_alike (s := respond .written s) hidle v
  | status => exact alike_next_of_idle (t := respond .written (writeStatus v s)) (by simpa using hidle)

theorem busAccess_alike (x : BusAccess) :
    AlikeButLatches (busAccess x s) (busAccess x (withLatches la lb lop lay s)) := by
  have hparams : (withLatches la lb lop lay s).params = s.params := rfl
  unfold busAccess
  rw [hparams]
  split
  · exact .refused _
  · split
    · exact .fault _
    · cases x with
      | read addr width => exact readAccess_alike hidle _
      | write addr width v => exact writeAccess_alike hidle _ addr v

theorem coreTurn_alike : AlikeButLatches (coreTurn s) (coreTurn (withLatches la lb lop lay s)) := by
  rw [coreTurn_idle hidle, coreTurn_idle (s := withLatches la lb lop lay s) hidle]
  exact alike_next_of_idle hidle

/-- With BUSY = 0 no step shows the latches: only acceptance begins a command, and it latches anew (R231). -/
theorem step_alike : AlikeButLatches (step s) (step (withLatches la lb lop lay s)) := by
  cases hin : s.inputs with
  | nil =>
    rw [step_empty s hin, step_empty (withLatches la lb lop lay s) hin]
    exact coreTurn_alike hidle
  | cons e rest =>
    have hin' : (withLatches la lb lop lay s).inputs = e :: rest := hin
    cases e with
    | bus x =>
      rw [step_bus hin, step_bus hin']
      exact busAccess_alike (s := withInputs rest s) hidle x
    | core =>
      rw [step_core s rest hin, step_core _ rest hin']
      exact coreTurn_alike (s := withInputs rest s) hidle
    | reset =>
      rw [step_reset s rest hin, step_reset _ rest hin']
      exact .refl _

end latches

/-- Settles O1: the reset state is read off, and `step_alike` is taken apart by the outcome of the step. -/
theorem resetControlIsZeroAndLatchesAreHidden : Obligations.ResetControlIsZeroAndLatchesAreHidden := by
  refine ⟨fun p => ⟨rfl, rfl, congrArg Except.ok status_word_reset⟩, fun s la lb lop lay hidle => ?_⟩
  have halike : AlikeButLatches (step s) (step { s with la := la, lb := lb, lop := lop, lay := lay }) :=
    step_alike hidle
  refine ⟨fun t hstep => ?_, fun f hstep => ?_, fun r hstep => ?_⟩
  · rw [hstep] at halike
    exact halike.next_inv
  · rw [hstep] at halike
    exact halike.fault_inv
  · rw [hstep] at halike
    exact halike.refused_inv

end Sys2Proof.Machine
end
